-- ==== Sys2Proof/Word.lean ====
section
/-! DEFINITION. The widths of the machine: 16-bit cells, 15-bit values, the program counter and the detail word. -/

namespace Sys2Proof

/-- One memory cell, a raw word 0..65535 (10_state.md R14, the spec's D1). -/
abbrev Cell := BitVec 16

/-- What a register, a stack entry and every stored result hold, 0..32767 (10_state.md R10, R13). -/
abbrev Value := BitVec 15

/-- The program counter: 16 bits, so that it can run past the last cell (10_state.md R12, the spec's D5). -/
abbrev Pc := BitVec 16

/-- The detail word of a halt, 18 bits (60_exceptions.md R151, the spec's D8). -/
abbrev Info := BitVec 18

/-- A character code on the Console's side: a non-negative integer of no stated width (50_interfaces.md R133). -/
abbrev Code := Nat

/-- One line the Console delivers (50_interfaces.md R133). -/
abbrev Line := List Code

end Sys2Proof
end

