-- ==== Sys2Proof/Machine/Flags.lean ====
section
/-! DEFINITION. The machine has no flags (10_state.md R18). What stands in their place: the truth value a comparison
writes to an ordinary target, and the test of a jump condition. -/

namespace Sys2Proof.Machine

/-- 1 or 0, what `eq` and `gt` write (10_state.md R18, 44_compare.md R105, R106). -/
def truthValue (b : Bool) : Nat := if b then 1 else 0

/-- A condition holds when the value is not zero (45_jumps.md R108). -/
def conditionHolds (v : Value) : Bool := v != 0

end Sys2Proof.Machine
end

