-- ==== Sys2Proof/Machine/Alu.lean ====
section
/-! DEFINITION. What the ALU computes from two 15-bit values, as an exact non-negative integer that `write` then
reduces (46_arith_logic.md R116, R117; 44_compare.md). -/

namespace Sys2Proof.Machine

/-- `eq` (44_compare.md R105). -/
def aluEq (x y : Value) : Nat := truthValue (x == y)

/-- `gt`, unsigned (44_compare.md R106). -/
def aluGt (x y : Value) : Nat := truthValue (decide (y.toNat < x.toNat))

/-- `add` (46_arith_logic.md R110). -/
def aluAdd (x y : Value) : Nat := (x.toNat + y.toNat) % 32768

/-- `mult` (46_arith_logic.md R111). -/
def aluMult (x y : Value) : Nat := (x.toNat * y.toNat) % 32768

/-- `mod`, for a divisor that is not 0 (46_arith_logic.md R112). -/
def aluMod (x y : Value) : Nat := x.toNat % y.toNat

/-- `and`, bits 14:0 independently (46_arith_logic.md R113, R117). -/
def aluAnd (x y : Value) : Nat := (x &&& y).toNat

/-- `or`, bits 14:0 independently (46_arith_logic.md R114, R117). -/
def aluOr (x y : Value) : Nat := (x ||| y).toNat

/-- `not`: the complement of the value as a cell, masked to 15 bits (46_arith_logic.md R115). -/
def aluNot (x : Value) : Nat := (~~~(x.setWidth 16) &&& 0x7FFF#16).toNat

end Sys2Proof.Machine
end

