-- ==== Sys2Proof/Config.lean ====
section
/-! DEFINITION. The parameters the spec leaves open (00_scope.md R7): their domains and their defaults. -/

namespace Sys2Proof

/-- `OPERAND_POLICY`: what becomes of an operand cell in 32776..65535 (00_scope.md R7, 30_encoding.md R58).
The value in force is a field of State (log entry 3), so every statement speaks of both. -/
inductive OperandPolicy where
  | normalize
  | reject
deriving DecidableEq, Repr

/-- The spec's default, `normalize` (00_scope.md R7, 92_eei_decisions.md D2). -/
def Config.defaultPolicy : OperandPolicy := .normalize

/-- `REG_RESET`: all zero (00_scope.md R7, 10_state.md R20, 92_eei_decisions.md D3). -/
def Config.regReset : Vector Value 8 := Vector.replicate 8 0

/-- `NEWLINE` = 10, a parameter of the Console; no step looks at it (00_scope.md R7, 92_eei_decisions.md D19).
PRESUMED, safe: see log entry 19. -/
def Config.newline : Code := 10

end Sys2Proof
end

