-- ==== Sys2Proof/Syntax.lean ====
section
/-! DEFINITION. The 22 instructions of the opcode table and the three classes of operand cell. -/

namespace Sys2Proof

/-- An operand cell by its class (30_encoding.md R53). -/
inductive Operand where
  /-- 0..32767: a literal. -/
  | lit (n : Value)
  /-- 32768..32775: the register whose index is the cell less 32768. -/
  | reg (i : Fin 8)
  /-- 32776..65535: out of range, the raw cell kept; what it means is the policy's (30_encoding.md R58). -/
  | outOfRange (c : Cell)
deriving DecidableEq, Repr

/-- One constructor per row of opcode_table.json, operands in the order `a b c` (30_encoding.md R54, R55).
`inp` is the table's `in`, a word Lean reserves. -/
inductive Instr where
  | halt
  | set (a b : Operand)
  | push (a : Operand)
  | pop (a : Operand)
  | eq (a b c : Operand)
  | gt (a b c : Operand)
  | jmp (a : Operand)
  | jt (a b : Operand)
  | jf (a b : Operand)
  | add (a b c : Operand)
  | mult (a b c : Operand)
  | mod (a b c : Operand)
  | and (a b c : Operand)
  | or (a b c : Operand)
  | not (a b : Operand)
  | rmem (a b : Operand)
  | wmem (a b : Operand)
  | call (a : Operand)
  | ret
  | out (a : Operand)
  | inp (a : Operand)
  | noop
deriving DecidableEq, Repr

/-- The operands of an instruction in the order of its cells (30_encoding.md R50). -/
def Instr.operands : Instr → List Operand
  | .halt => []
  | .set a b => [a, b]
  | .push a => [a]
  | .pop a => [a]
  | .eq a b c => [a, b, c]
  | .gt a b c => [a, b, c]
  | .jmp a => [a]
  | .jt a b => [a, b]
  | .jf a b => [a, b]
  | .add a b c => [a, b, c]
  | .mult a b c => [a, b, c]
  | .mod a b c => [a, b, c]
  | .and a b c => [a, b, c]
  | .or a b c => [a, b, c]
  | .not a b => [a, b]
  | .rmem a b => [a, b]
  | .wmem a b => [a, b]
  | .call a => [a]
  | .ret => []
  | .out a => [a]
  | .inp a => [a]
  | .noop => []

/-- The number of cells an instruction occupies: its opcode cell and its operand cells (30_encoding.md R56). -/
def Instr.length (i : Instr) : Nat := 1 + i.operands.length

end Sys2Proof
end

