-- ==== Sys2Proof/WellFormed.lean ====
section
/-! DEFINITION. Which instruction terms stand for cells a memory can hold. -/

namespace Sys2Proof

/-- An `outOfRange` operand carries a cell of that class, 32776..65535 (30_encoding.md R53); the other two classes
are exact by their types. -/
def Operand.wellFormed : Operand → Bool
  | .lit _ => true
  | .reg _ => true
  | .outOfRange c => decide (32775 < c.toNat)

/-- Every operand is well formed. -/
def Instr.wellFormed (i : Instr) : Bool := i.operands.all Operand.wellFormed

end Sys2Proof
end

