-- ==== Sys2Proof/Decode.lean ====
section
/-! DEFINITION. From cells to an instruction and back (30_encoding.md R50 to R57). -/

namespace Sys2Proof

/-- The class of an operand cell, by its numeric range (30_encoding.md R53). -/
def decodeOperand (c : Cell) : Operand :=
  if c.toNat ≤ 32767 then .lit (c.setWidth 15)
  else if c.toNat ≤ 32775 then .reg ⟨(c.toNat - 32768) % 8, Nat.mod_lt _ (by decide)⟩
  else .outOfRange c

/-- Why cells are no instruction. -/
inductive DecodeError where
  /-- There is no opcode cell. -/
  | noCell
  /-- The opcode cell is above 21 (30_encoding.md R57). -/
  | illegalOpcode (op : Cell)
  /-- Fewer operand cells than the opcode requires (30_encoding.md R50). -/
  | missingOperand (op : Cell)
deriving DecidableEq, Repr

/-- The operand count of an opcode cell compared whole, none above 21 (30_encoding.md R52, R55). -/
def operandCount (op : Cell) : Option Nat :=
  match op.toNat with
  | 0 => some 0
  | 1 => some 2
  | 2 => some 1
  | 3 => some 1
  | 4 => some 3
  | 5 => some 3
  | 6 => some 1
  | 7 => some 2
  | 8 => some 2
  | 9 => some 3
  | 10 => some 3
  | 11 => some 3
  | 12 => some 3
  | 13 => some 3
  | 14 => some 2
  | 15 => some 2
  | 16 => some 2
  | 17 => some 1
  | 18 => some 0
  | 19 => some 1
  | 20 => some 1
  | 21 => some 0
  | _ => none

/-- Format F0: no operand cell (30_encoding.md R51). -/
def decodeF0 (i : Instr) (rest : List Cell) : Except DecodeError (Instr × List Cell) :=
  .ok (i, rest)

/-- Format F1: one operand cell (30_encoding.md R51). -/
def decodeF1 (op : Cell) (mk : Operand → Instr) : List Cell → Except DecodeError (Instr × List Cell)
  | a :: rest => .ok (mk (decodeOperand a), rest)
  | _ => .error (.missingOperand op)

/-- Format F2: two operand cells (30_encoding.md R51). -/
def decodeF2 (op : Cell) (mk : Operand → Operand → Instr) : List Cell → Except DecodeError (Instr × List Cell)
  | a :: b :: rest => .ok (mk (decodeOperand a) (decodeOperand b), rest)
  | _ => .error (.missingOperand op)

/-- Format F3: three operand cells (30_encoding.md R51). -/
def decodeF3 (op : Cell) (mk : Operand → Operand → Operand → Instr) :
    List Cell → Except DecodeError (Instr × List Cell)
  | a :: b :: c :: rest => .ok (mk (decodeOperand a) (decodeOperand b) (decodeOperand c), rest)
  | _ => .error (.missingOperand op)

/-- The first instruction of a list of cells and the cells after it. The opcode cell is a number, never an operand
(30_encoding.md R52), and is looked at before any operand cell (R57). -/
def decode : List Cell → Except DecodeError (Instr × List Cell)
  | [] => .error .noCell
  | op :: rest =>
    match op.toNat with
    | 0 => decodeF0 .halt rest
    | 1 => decodeF2 op .set rest
    | 2 => decodeF1 op .push rest
    | 3 => decodeF1 op .pop rest
    | 4 => decodeF3 op .eq rest
    | 5 => decodeF3 op .gt rest
    | 6 => decodeF1 op .jmp rest
    | 7 => decodeF2 op .jt rest
    | 8 => decodeF2 op .jf rest
    | 9 => decodeF3 op .add rest
    | 10 => decodeF3 op .mult rest
    | 11 => decodeF3 op .mod rest
    | 12 => decodeF3 op .and rest
    | 13 => decodeF3 op .or rest
    | 14 => decodeF2 op .not rest
    | 15 => decodeF2 op .rmem rest
    | 16 => decodeF2 op .wmem rest
    | 17 => decodeF1 op .call rest
    | 18 => decodeF0 .ret rest
    | 19 => decodeF1 op .out rest
    | 20 => decodeF1 op .inp rest
    | 21 => decodeF0 .noop rest
    | _ => .error (.illegalOpcode op)

/-- The cell of an operand (30_encoding.md R53). -/
def Operand.cell : Operand → Cell
  | .lit n => n.setWidth 16
  | .reg i => BitVec.ofNat 16 (32768 + i.val)
  | .outOfRange c => c

/-- The opcode cell of an instruction (30_encoding.md R55). -/
def Instr.opcode : Instr → Cell
  | .halt => 0
  | .set .. => 1
  | .push .. => 2
  | .pop .. => 3
  | .eq .. => 4
  | .gt .. => 5
  | .jmp .. => 6
  | .jt .. => 7
  | .jf .. => 8
  | .add .. => 9
  | .mult .. => 10
  | .mod .. => 11
  | .and .. => 12
  | .or .. => 13
  | .not .. => 14
  | .rmem .. => 15
  | .wmem .. => 16
  | .call .. => 17
  | .ret => 18
  | .out .. => 19
  | .inp .. => 20
  | .noop => 21

/-- The cells of an instruction: its opcode cell, then its operand cells at the next addresses (30_encoding.md R50). -/
def encode (i : Instr) : List Cell := i.opcode :: i.operands.map Operand.cell

/-- Cell `k` of a table word: bits 16k+15 .. 16k of its low `nbits` bits. -/
def tableCell (nbits w k : Nat) : Cell := BitVec.ofNat 16 (w % 2 ^ nbits / 65536 ^ k)

/-- A table word as the four cells of the longest instruction, the bits above `nbits` zero, first cell first. -/
def tableCells (nbits w : Nat) : List Cell :=
  [tableCell nbits w 0, tableCell nbits w 1, tableCell nbits w 2, tableCell nbits w 3]

/-- The instruction the decoder reads from a table word. -/
def decodeTableWord (nbits w : Nat) : Option Instr :=
  match decode (tableCells nbits w) with
  | .ok (i, _) => some i
  | .error _ => none

end Sys2Proof
end

