-- ==== Sys2Proof/Machine/State.lean ====
section
/-! DEFINITION. The state of the machine, the reasons a step could stop, and the state after reset. -/

namespace Sys2Proof.Machine

/-- Memory as data: (address, cell) pairs. An address that is not listed reads as 0, the zero fill of
10_state.md R23. The canonical form is `Memory.wf`; the entry is a whole 16-bit cell because the machine has no
smaller unit (20_memory.md R30, R31, R33; log entry 1). -/
abbrev Memory := List (Nat × Cell)

/-- The two run states (10_state.md R15). -/
inductive RunState where
  | running
  | halted
deriving DecidableEq, Repr

/-- Why the machine halted (10_state.md R16, 60_exceptions.md R151). -/
inductive Cause where
  | none
  | haltInstr
  | retEmpty
  | pcOutOfRange
  | stackUnderflow
  | invalidWriteTarget
  | divisionByZero
  | outOfRangeOperand
  | invalidOpcode
deriving DecidableEq, Repr

/-- Everything the spec gives the machine (10_state.md R10 to R19), then the two parameters of a run and the record
of what it emitted. -/
structure State where
  /-- `x[0]` .. `x[7]` (10_state.md R10). -/
  regs : Vector Value 8
  /-- The program counter (10_state.md R12). -/
  pc : Pc
  /-- The stack; the last element is the top (10_state.md R13). -/
  stack : List Value
  /-- `mem[0]` .. `mem[32767]` (10_state.md R14). -/
  mem : Memory
  /-- RUNNING or HALTED (10_state.md R15). -/
  run : RunState
  /-- The first half of the status word (10_state.md R16). -/
  cause : Cause
  /-- The second half of the status word (10_state.md R16). -/
  info : Info
  /-- Codes read from the Console and not yet delivered, the next one first (10_state.md R17). -/
  inbuf : List Code
  /-- The model's own field: `OPERAND_POLICY`, written by no step (00_scope.md R7; log entry 3). -/
  policy : OperandPolicy
  /-- The model's own field: `INPUT`, the lines the Console has still to deliver, the next one first
  (00_scope.md R7, 50_interfaces.md R133; log entry 5). -/
  lines : List Line
  /-- The model's own field: the codes emitted since reset, oldest first; no step reads it
  (10_state.md R19, 50_interfaces.md R132; log entry 6). -/
  output : List Value
deriving DecidableEq, Repr

/-- No step faults: every exceptional event of the spec is a transition to HALTED (60_exceptions.md R150), which is a
next state, and no data access can leave the memory range (20_memory.md R35). So there is no constructor, which is
safe: log entry 8. -/
inductive Fault where
deriving DecidableEq, Repr

/-- Why an instruction has no meaning in the model. -/
inductive Refusal where
  /-- Raised by an arm of `exec` whose instruction is not modelled yet; no arm is left that raises it. Safe: the model
  stops where the hardware goes on. -/
  | notModelled (mnemonic : String)
deriving DecidableEq, Repr

/-- The machine right after reset with an empty image, every parameter at the spec's default (70_reset_and_hazards.md
R180; log entries 3, 4, 5, 14). -/
def State.reset : State where
  regs := Config.regReset
  pc := 0
  stack := []
  mem := []
  run := .running
  cause := .none
  info := 0
  inbuf := []
  policy := Config.defaultPolicy
  lines := []
  output := []

end Sys2Proof.Machine
end

