-- ==== Sys2Proof/Machine/Ops.lean ====
section
/-! DEFINITION. The named operations over memory, registers, stack, console and status that every meaning is made of,
among them the one way to halt and the host's reset. -/

namespace Sys2Proof.Machine

/-! ### Memory (20_memory.md) -/

/-- The cell at an address: the listed one, else 0 (10_state.md R23). -/
def Memory.read : Memory → Nat → Cell
  | [], _ => 0
  | (k, c) :: m, a => if k = a then c else Memory.read m a

/-- The memory with no entry at an address. -/
def Memory.erase (m : Memory) (a : Nat) : Memory := m.filter fun e => e.1 != a

/-- The memory with an entry put at its place in the order of addresses. -/
def Memory.insert : Memory → Nat → Cell → Memory
  | [], a, c => [(a, c)]
  | e :: m, a, c => if a < e.1 then (a, c) :: e :: m else e :: Memory.insert m a c

/-- The memory after a cell is written; writing 0, what an unlisted address reads as, leaves no entry. -/
def Memory.write (m : Memory) (a : Nat) (c : Cell) : Memory :=
  if c = 0 then m.erase a else (m.erase a).insert a c

/-- The memory of an image whose first cell goes to address `a` (10_state.md R23). -/
def Memory.ofImage : Nat → List Cell → Memory
  | _, [] => []
  | a, c :: image => if c = 0 then Memory.ofImage (a + 1) image else (a, c) :: Memory.ofImage (a + 1) image

/-- Every address listed is at least `lo` and rises strictly, exists (20_memory.md R30), and its cell is not 0. -/
def Memory.wfFrom : Nat → Memory → Bool
  | _, [] => true
  | lo, (k, c) :: m => decide (lo ≤ k) && decide (k < 32768) && (c != 0) && Memory.wfFrom (k + 1) m

/-- The canonical form: addresses strictly rising inside 0..32767, no entry equal to 0. -/
def Memory.wf (m : Memory) : Bool := Memory.wfFrom 0 m

/-- `MemRead(addr, 1)`: the raw 16-bit cell; the address is a value, so it always exists (20_memory.md R33, R35). -/
def State.memRead (s : State) (a : Value) : Cell := s.mem.read a.toNat

/-- `MemWrite(addr, 1, v)`: the value zero-extended to a cell, so bit 15 is 0 (20_memory.md R33, R36). -/
def State.memWrite (s : State) (a v : Value) : State :=
  { s with mem := s.mem.write a.toNat (v.setWidth 16) }

/-! ### Registers (10_state.md R10) -/

/-- `x[i]`. -/
def State.reg (s : State) (i : Fin 8) : Value := s.regs[i]

/-- `x[i] <- v`. No register is hard-wired (10_state.md R10). -/
def State.setReg (s : State) (i : Fin 8) (v : Value) : State := { s with regs := s.regs.set i v }

/-! ### Program counter (41_execution_loop.md R86, R87) -/

/-- The default advance `pc <- pc + 1 + n` by the instruction's length, not reduced modulo 32768 (R86). -/
def State.advance (s : State) (len : Nat) : State := { s with pc := s.pc + BitVec.ofNat 16 len }

/-- `pc <- v`: a jump, call or return loads a value as it is (R87). -/
def State.jump (s : State) (v : Value) : State := { s with pc := v.setWidth 16 }

/-! ### Stack (10_state.md R13) -/

/-- `push(v)`: append; it always succeeds, the stack has no bound. -/
def State.push (s : State) (v : Value) : State := { s with stack := s.stack ++ [v] }

/-- `pop()`: the most recently pushed value and the machine without it, none when the stack is empty. -/
def State.pop? (s : State) : Option (Value × State) :=
  match s.stack.getLast? with
  | none => none
  | some v => some (v, { s with stack := s.stack.dropLast })

/-! ### Halting: the machine's only exceptional event (60_exceptions.md R150, R159)

There is no operation beside it that returns: nothing leaves HALTED but reset (R160). -/

/-- `halt_with(cause, info)` and `raise`: HALTED with its status word, nothing else changed, `pc` included. -/
def State.haltWith (s : State) (c : Cause) (info : Info) : State :=
  { s with run := .halted, cause := c, info := info }

/-- The detail word of a pc (60_exceptions.md R151). -/
def pcInfo (pc : Pc) : Info := pc.setWidth 18

/-- The detail word of a raw cell (60_exceptions.md R151). -/
def cellInfo (c : Cell) : Info := c.setWidth 18

/-- The detail word position and cell: position in bits 17:16, raw cell in bits 15:0 (41_execution_loop.md R84). -/
def operandInfo (position : Nat) (c : Cell) : Info := BitVec.ofNat 18 (position * 65536 + c.toNat)

/-- The number of a cause, a 4-bit field (60_exceptions.md R151, the spec's D8). -/
def Cause.code : Cause → BitVec 4
  | .none => 0
  | .haltInstr => 1
  | .retEmpty => 2
  | .pcOutOfRange => 3
  | .stackUnderflow => 4
  | .invalidWriteTarget => 5
  | .divisionByZero => 6
  | .outOfRangeOperand => 7
  | .invalidOpcode => 8

/-! ### Console (50_interfaces.md R132, R133) -/

/-- `ConsoleOut(code)`: one code, uninterpreted, at the end of the output (R132). -/
def State.emit (s : State) (v : Value) : State := { s with output := s.output ++ [v] }

/-- `ConsoleReadLine()`: the first code of the next line, the codes after it, the lines left. A line with no codes is
no line (49_console_io.md R123 corner case 7); none when the Console has no line to deliver. -/
def consoleReadLine : List Line → Option (Code × Line × List Line)
  | [] => none
  | [] :: lines => consoleReadLine lines
  | (ch :: line) :: lines => some (ch, line, lines)

/-- The next code for `in` and the machine without it; a line is read only when `inbuf` is empty
(49_console_io.md R123). None: the machine waits. -/
def State.nextCode? (s : State) : Option (Code × State) :=
  match s.inbuf with
  | ch :: rest => some (ch, { s with inbuf := rest })
  | [] =>
    match consoleReadLine s.lines with
    | none => none
    | some (ch, rest, lines) => some (ch, { s with inbuf := rest, lines := lines })

/-- An event of the environment, not of a step: the Console has one more line to deliver (50_interfaces.md R133). -/
def State.deliverLine (s : State) (line : Line) : State := { s with lines := s.lines ++ [line] }

/-! ### The host (50_interfaces.md R134, R135) -/

/-- `reset(IMAGE)` with the run's parameters; an image of more than 32768 cells is refused before the CORE sees it
(70_reset_and_hazards.md R180, 50_interfaces.md R131, 92_eei_decisions.md D17). -/
def State.resetWith (policy : OperandPolicy) (regReset : Vector Value 8) (image : List Cell) (input : List Line) :
    Option State :=
  if image.length ≤ 32768 then
    some { State.reset with
      regs := regReset
      mem := Memory.ofImage 0 image
      policy := policy
      lines := input }
  else none

/-- What the host can read at any time: run, cause, info (50_interfaces.md R134). -/
def State.status (s : State) : RunState × Cause × Info := (s.run, s.cause, s.info)

/-- The typed result of a halted machine, none while it runs (50_interfaces.md R134). -/
def State.result? (s : State) : Option (Cause × Info) :=
  match s.run with
  | .running => none
  | .halted => some (s.cause, s.info)

end Sys2Proof.Machine
end

