-- ==== Sys2Proof/Machine/Operands.lean ====
section
/-! DEFINITION. Operand resolution: classify, value, target, write, address (40_operand_resolution.md). -/

namespace Sys2Proof.Machine

/-- A classified operand that is not `Invalid` (40_operand_resolution.md R70). -/
inductive Resolved where
  | lit (n : Value)
  | reg (i : Fin 8)
deriving DecidableEq, Repr

/-- `classify`: an out-of-range cell is the literal modulo 32768, or `Invalid` with the raw cell
(40_operand_resolution.md R70, 30_encoding.md R58). -/
def classify (policy : OperandPolicy) : Operand → Except Cell Resolved
  | .lit n => .ok (.lit n)
  | .reg i => .ok (.reg i)
  | .outOfRange c =>
    match policy with
    | .normalize => .ok (.lit (BitVec.ofNat 15 (c.toNat % 32768)))
    | .reject => .error c

/-- `value(k)` (40_operand_resolution.md R71). -/
def State.value (s : State) : Resolved → Value
  | .lit n => n
  | .reg i => s.reg i

/-- `address(k) = value(k)` (40_operand_resolution.md R74, 90_conflicts.md C5). -/
def State.address (s : State) (k : Resolved) : Value := s.value k

/-- The place a result goes to (40_operand_resolution.md R72). -/
inductive Target where
  | reg (i : Fin 8)
  | mem (n : Value)
deriving DecidableEq, Repr

/-- `target(k)` (40_operand_resolution.md R72). -/
def target : Resolved → Target
  | .reg i => .reg i
  | .lit n => .mem n

/-- `write(t, v)`: any non-negative integer, stored modulo 32768 (40_operand_resolution.md R73). -/
def State.write (s : State) (t : Target) (v : Nat) : State :=
  match t with
  | .reg i => s.setReg i (BitVec.ofNat 15 (v % 32768))
  | .mem n => s.memWrite n (BitVec.ofNat 15 (v % 32768))

/-- Part S4 of the step for one operand: go on with its classification, or halt with `OutOfRangeOperand` and the
position and raw cell (41_execution_loop.md R84). Nested in the order a, b, c, the first invalid operand wins. -/
def State.withOperand (s : State) (position : Nat) (o : Operand) (k : Resolved → State) : State :=
  match classify s.policy o with
  | .ok r => k r
  | .error c => s.haltWith .outOfRangeOperand (operandInfo position c)

/-- S4 for a one-operand instruction. -/
def State.with1 (s : State) (a : Operand) (k : Resolved → State) : State := s.withOperand 1 a k

/-- S4 for a two-operand instruction. -/
def State.with2 (s : State) (a b : Operand) (k : Resolved → Resolved → State) : State :=
  s.withOperand 1 a fun ka => s.withOperand 2 b fun kb => k ka kb

/-- S4 for a three-operand instruction. -/
def State.with3 (s : State) (a b c : Operand) (k : Resolved → Resolved → Resolved → State) : State :=
  s.withOperand 1 a fun ka => s.withOperand 2 b fun kb => s.withOperand 3 c fun kc => k ka kb kc

end Sys2Proof.Machine
end

