-- ==== Sys2Proof/Machine/BinaryOps.lean ====
section
/-! DEFINITION. The shape that eq, gt, add, mult, and, or share: `target(a) <- f(value(b), value(c))`, four cells. -/

namespace Sys2Proof.Machine

/-- Sources are read on the state before the instruction, then the one write, then the advance
(40_operand_resolution.md R75). -/
def State.binary (s : State) (f : Value → Value → Nat) (a b c : Operand) : State :=
  s.with3 a b c fun ka kb kc => (s.write (target ka) (f (s.value kb) (s.value kc))).advance 4

end Sys2Proof.Machine
end

