-- ==== Sys2Proof/Machine/ArithLogic.lean ====
section
/-! DEFINITION. add, mult, mod, and, or, not (46_arith_logic.md). -/

namespace Sys2Proof.Machine

/-- `add a b c` (R110). -/
def execAdd (a b c : Operand) (s : State) : Host.Outcome State Fault Refusal := .next (s.binary aluAdd a b c)

/-- `mult a b c` (R111). -/
def execMult (a b c : Operand) (s : State) : Host.Outcome State Fault Refusal := .next (s.binary aluMult a b c)

/-- `mod a b c` (R112): a divisor whose value is 0 is `DivisionByZero`, and nothing is written. -/
def execMod (a b c : Operand) (s : State) : Host.Outcome State Fault Refusal :=
  .next (s.with3 a b c fun ka kb kc =>
    if s.value kc = 0 then s.haltWith .divisionByZero 0
    else (s.write (target ka) (aluMod (s.value kb) (s.value kc))).advance 4)

/-- `and a b c` (R113). -/
def execAnd (a b c : Operand) (s : State) : Host.Outcome State Fault Refusal := .next (s.binary aluAnd a b c)

/-- `or a b c` (R114). -/
def execOr (a b c : Operand) (s : State) : Host.Outcome State Fault Refusal := .next (s.binary aluOr a b c)

/-- `not a b` (R115). -/
def execNot (a b : Operand) (s : State) : Host.Outcome State Fault Refusal :=
  .next (s.with2 a b fun ka kb => (s.write (target ka) (aluNot (s.value kb))).advance 3)

end Sys2Proof.Machine
end

