-- ==== Sys2Proof/Machine/CallRet.lean ====
section
/-! DEFINITION. call and ret (48_call_ret.md). -/

namespace Sys2Proof.Machine

/-- The address after a call, reduced like every stored value: `(pc + 2) mod 32768` (R120, the spec's D12). -/
def State.returnAddress (s : State) : Value := BitVec.ofNat 15 ((s.pc.toNat + 2) % 32768)

/-- `call a` (R120): the target is read before the push. -/
def execCall (a : Operand) (s : State) : Host.Outcome State Fault Refusal :=
  .next (s.with1 a fun ka => (s.push s.returnAddress).jump (s.value ka))

/-- `ret` (R121): an empty stack is a clean halt with the pc unchanged. -/
def execRet (s : State) : Host.Outcome State Fault Refusal :=
  .next (match s.pop? with
    | none => s.haltWith .retEmpty 0
    | some (v, s') => s'.jump v)

end Sys2Proof.Machine
end

