-- ==== Sys2Proof/Machine/Compare.lean ====
section
/-! DEFINITION. eq and gt (44_compare.md). -/

namespace Sys2Proof.Machine

/-- `eq a b c` (R105). -/
def execEq (a b c : Operand) (s : State) : Host.Outcome State Fault Refusal := .next (s.binary aluEq a b c)

/-- `gt a b c` (R106). -/
def execGt (a b c : Operand) (s : State) : Host.Outcome State Fault Refusal := .next (s.binary aluGt a b c)

end Sys2Proof.Machine
end

