-- ==== Sys2Proof/Machine/ConsoleIo.lean ====
section
/-! DEFINITION. out and in (49_console_io.md). -/

namespace Sys2Proof.Machine

/-- `out a` (R122): one code, the whole 15-bit value. -/
def execOut (a : Operand) (s : State) : Host.Outcome State Fault Refusal :=
  .next (s.with1 a fun ka => (s.emit (s.value ka)).advance 2)

/-- `in a` (R123): the next code of the buffer, or of the next line when the buffer is empty. With neither, the machine
waits: the step has not happened and no state has changed (log entry 7). -/
def execIn (a : Operand) (s : State) : Host.Outcome State Fault Refusal :=
  .next (s.with1 a fun ka =>
    match s.nextCode? with
    | none => s
    | some (ch, s') => (s'.write (target ka) ch).advance 2)

end Sys2Proof.Machine
end

