-- ==== Sys2Proof/Machine/HaltNoop.lean ====
section
/-! DEFINITION. halt and noop (42_halt_noop.md). -/

namespace Sys2Proof.Machine

/-- `halt` (R100): the pc is advanced, then the machine halts. -/
def execHalt (s : State) : Host.Outcome State Fault Refusal := .next ((s.advance 1).haltWith .haltInstr 0)

/-- `noop` (R101): only the pc changes. -/
def execNoop (s : State) : Host.Outcome State Fault Refusal := .next (s.advance 1)

end Sys2Proof.Machine
end

