-- ==== Sys2Proof/Machine/Jumps.lean ====
section
/-! DEFINITION. jmp, jt and jf (45_jumps.md). -/

namespace Sys2Proof.Machine

/-- `jmp a` (R107). -/
def execJmp (a : Operand) (s : State) : Host.Outcome State Fault Refusal :=
  .next (s.with1 a fun ka => s.jump (s.value ka))

/-- `jt a b` (R108): jump if the condition is not zero, else the default advance. -/
def execJt (a b : Operand) (s : State) : Host.Outcome State Fault Refusal :=
  .next (s.with2 a b fun ka kb => if conditionHolds (s.value ka) then s.jump (s.value kb) else s.advance 3)

/-- `jf a b` (R109): jump if the condition is zero, else the default advance. -/
def execJf (a b : Operand) (s : State) : Host.Outcome State Fault Refusal :=
  .next (s.with2 a b fun ka kb => if conditionHolds (s.value ka) then s.advance 3 else s.jump (s.value kb))

end Sys2Proof.Machine
end

