-- ==== Sys2Proof/Machine/RmemWmem.lean ====
section
/-! DEFINITION. rmem and wmem (47_rmem_wmem.md). -/

namespace Sys2Proof.Machine

/-- `rmem a b` (R118): the raw cell at `address(b)`, not classified, stored modulo 32768. -/
def execRmem (a b : Operand) (s : State) : Host.Outcome State Fault Refusal :=
  .next (s.with2 a b fun ka kb => (s.write (target ka) (s.memRead (s.address kb)).toNat).advance 3)

/-- `wmem a b` (R119): always a memory cell; a register operand `a` holds the address and stays as it is. -/
def execWmem (a b : Operand) (s : State) : Host.Outcome State Fault Refusal :=
  .next (s.with2 a b fun ka kb => (s.memWrite (s.address ka) (s.value kb)).advance 3)

end Sys2Proof.Machine
end

