-- ==== Sys2Proof/Machine/SetPushPop.lean ====
section
/-! DEFINITION. set, push and pop (43_set_push_pop.md). -/

namespace Sys2Proof.Machine

/-- `set a b` (R102): operand `a` must denote a register; otherwise `InvalidWriteTarget` with its raw cell. -/
def execSet (a b : Operand) (s : State) : Host.Outcome State Fault Refusal :=
  .next (s.with2 a b fun ka kb =>
    match ka with
    | .reg i => (s.write (.reg i) (s.value kb).toNat).advance 3
    | .lit _ => s.haltWith .invalidWriteTarget (cellInfo a.cell))

/-- `push a` (R103). -/
def execPush (a : Operand) (s : State) : Host.Outcome State Fault Refusal :=
  .next (s.with1 a fun ka => (s.push (s.value ka)).advance 2)

/-- `pop a` (R104): an empty stack is `StackUnderflow`. -/
def execPop (a : Operand) (s : State) : Host.Outcome State Fault Refusal :=
  .next (s.with1 a fun ka =>
    match s.pop? with
    | none => s.haltWith .stackUnderflow 0
    | some (v, s') => (s'.write (target ka) v.toNat).advance 2)

end Sys2Proof.Machine
end

