-- ==== Sys2Proof/Machine/Fetch.lean ====
section
/-! DEFINITION. Parts S1 to S3 of the step: reading the cells of the next instruction (41_execution_loop.md R80 to R83). -/

namespace Sys2Proof.Machine

/-- Up to `k` cells from an address on, as far as memory goes; addresses do not wrap (20_memory.md R35). -/
def State.cellsFrom (s : State) : Nat → Nat → List Cell
  | _, 0 => []
  | a, k + 1 => if a ≤ 32767 then s.mem.read a :: s.cellsFrom (a + 1) k else []

/-- The instruction at the pc. No cell at all is S1, an opcode above 21 is S2, an operand cell that does not exist is
S3, in that order; reading a cell has no side effect, so reading past the instruction's own cells is harmless. -/
def State.fetch (s : State) : Except DecodeError (Instr × List Cell) := decode (s.cellsFrom s.pc.toNat 4)

/-- The halt of a step that has no instruction: `PC_OUT_OF_RANGE` with the pc (R81, R83), `InvalidOpcode` with the
opcode cell (R82); the pc stays. -/
def State.fetchHalt (s : State) : DecodeError → State
  | .noCell => s.haltWith .pcOutOfRange (pcInfo s.pc)
  | .illegalOpcode op => s.haltWith .invalidOpcode (cellInfo op)
  | .missingOperand _ => s.haltWith .pcOutOfRange (pcInfo s.pc)

/-- Put cells at an address and the ones after it, as far as memory goes: what the Loader does before a run. -/
def State.placeCells (s : State) : Nat → List Cell → State
  | _, [] => s
  | a, c :: cs =>
    if a ≤ 32767 then State.placeCells { s with mem := s.mem.write a c } (a + 1) cs else s

end Sys2Proof.Machine
end

