-- ==== Sys2Proof/Machine/Step.lean ====
section
/-! DEFINITION. One step of the machine (41_execution_loop.md R80, R90). -/

namespace Sys2Proof.Machine

/-- One step. HALTED: the identity (R90). RUNNING: the instruction at the pc is executed, or the fetch halts the
machine (R80 to R83). -/
def step (s : State) : Host.Outcome State Fault Refusal :=
  match s.run with
  | .halted => .next s
  | .running =>
    match s.fetch with
    | .ok (i, _) => exec i s
    | .error e => .next (s.fetchHalt e)

/-- The state with a table word's instruction placed at the pc, where the next step fetches; it stands for the Loader's
placing of a program (log entry 14). -/
def State.withFetchWord (s : State) (nbits w : Nat) : State := s.placeCells s.pc.toNat (tableCells nbits w)

end Sys2Proof.Machine
end

