-- ==== Sys2Proof/Machine/Run.lean ====
section
/-! DEFINITION. The host's `run`, under fuel (41_execution_loop.md R91, R89). -/

namespace Sys2Proof.Machine

/-- Step until HALTED, at most `fuel` times: the typed result, or none when the machine is still RUNNING (R91). -/
def hostRun : Nat → State → Option (Cause × Info)
  | 0, s => s.result?
  | fuel + 1, s =>
    match step s with
    | .next s' => hostRun fuel s'
    | .fault _ => none
    | .refused _ => none

end Sys2Proof.Machine
end

