-- ==== Sys2Proof/Safety.lean ====
section
/-! DEFINITION. The terms claims are stated in: how a run ended, what every reachable state satisfies, and what an
instruction changed and left alone. -/

namespace Sys2Proof.Machine

/-- The three classes of result, and a machine that still runs (60_exceptions.md R157). -/
inductive ResultClass where
  | running
  | clean
  | offRange
  | fatal
deriving DecidableEq, Repr

/-- The class of a cause (60_exceptions.md R151, R157). -/
def Cause.resultClass : Cause → ResultClass
  | .none => .running
  | .haltInstr => .clean
  | .retEmpty => .clean
  | .pcOutOfRange => .offRange
  | .stackUnderflow => .fatal
  | .invalidWriteTarget => .fatal
  | .divisionByZero => .fatal
  | .outOfRangeOperand => .fatal
  | .invalidOpcode => .fatal

/-- A run that has not ended badly: it still runs or it ended by its own instruction (60_exceptions.md R157). -/
def State.safe (s : State) : Bool :=
  s.cause.resultClass == .running || s.cause.resultClass == .clean

/-- What the Console promises of a line: its last code is the newline code, so it has one (50_interfaces.md R133).
The CORE relies on it nowhere. -/
def lineOk (line : Line) : Bool := line.getLast? == some Config.newline

/-- The machine is held in its one wait state: RUNNING at an `in` whose operand is not rejected, nothing buffered, no
line with a code in it delivered (60_exceptions.md R167). -/
def State.waiting (s : State) : Bool :=
  match s.run, s.fetch with
  | .running, .ok (.inp a, _) =>
    match classify s.policy a with
    | .ok _ => s.inbuf.isEmpty && s.lines.all List.isEmpty
    | .error _ => false
  | _, _ => false

/-- The status word says what 60_exceptions.md R151 says it can: `cause = NONE` exactly while RUNNING, and each cause
with the detail word of its row. -/
def State.statusOk (s : State) : Bool :=
  match s.cause with
  | .none => s.run == .running && s.info == 0
  | .haltInstr => s.run == .halted && s.info == 0
  | .retEmpty => s.run == .halted && s.info == 0
  | .pcOutOfRange => s.run == .halted && s.info == pcInfo s.pc && decide (32765 ≤ s.pc.toNat)
  | .stackUnderflow => s.run == .halted && s.info == 0
  | .invalidWriteTarget =>
    s.run == .halted && decide (s.info.toNat < 65536) &&
      (decide (s.info.toNat < 32768) || decide (32775 < s.info.toNat))
  | .divisionByZero => s.run == .halted && s.info == 0
  | .outOfRangeOperand =>
    s.run == .halted && s.policy == .reject && decide (1 ≤ s.info.toNat / 65536) &&
      decide (s.info.toNat / 65536 ≤ 3) && decide (32775 < s.info.toNat % 65536)
  | .invalidOpcode => s.run == .halted && decide (21 < s.info.toNat) && decide (s.info.toNat < 65536)

/-- The invariant of the machine: memory canonical, the pc at most 32768 (10_state.md R12, 90_conflicts.md C9), the
status word in order. Registers, stack entries and stored results are in 0..32767 by their types (10_state.md R11). -/
def State.inv (s : State) : Bool := s.mem.wf && decide (s.pc.toNat ≤ 32768) && s.statusOk

/-! ### What an instruction does to the state -/

/-- Everything but registers, memory and pc is the same. -/
def SameButRegsMemPc (s t : State) : Prop :=
  t.stack = s.stack ∧ t.run = s.run ∧ t.cause = s.cause ∧ t.info = s.info ∧ t.inbuf = s.inbuf ∧
    t.policy = s.policy ∧ t.lines = s.lines ∧ t.output = s.output

/-- `t` is `s` with the integer `v` modulo 32768 stored at the place the operand denotes, and the pc advanced by `len`:
the register, every other one as before, all of memory as before; or the cell, every other one as before, all
registers as before. Nothing else changed. -/
def StoresResult (s t : State) (k : Resolved) (v len : Nat) : Prop :=
  (∀ j : Fin 8, (t.reg j).toNat =
    match k with
    | .reg i => if j = i then v % 32768 else (s.reg j).toNat
    | .lit _ => (s.reg j).toNat) ∧
  (∀ a : Nat, (t.mem.read a).toNat =
    match k with
    | .reg _ => (s.mem.read a).toNat
    | .lit n => if a = n.toNat then v % 32768 else (s.mem.read a).toNat) ∧
  t.pc = s.pc + BitVec.ofNat 16 len ∧ SameButRegsMemPc s t

/-- `t` is `s` halted with a cause and a detail word, nothing else changed (60_exceptions.md R159). -/
def HaltsWith (s t : State) (c : Cause) (info : Nat) : Prop :=
  t = { s with run := .halted, cause := c, info := BitVec.ofNat 18 info }

/-- The operand with role T or TR, where a result goes, of the instructions that have one (30_encoding.md R54). -/
def targetOperand : Instr → Option Operand
  | .set a _ => some a
  | .pop a => some a
  | .eq a _ _ => some a
  | .gt a _ _ => some a
  | .add a _ _ => some a
  | .mult a _ _ => some a
  | .mod a _ _ => some a
  | .and a _ _ => some a
  | .or a _ _ => some a
  | .not a _ => some a
  | .rmem a _ => some a
  | .inp a => some a
  | .halt => none
  | .push _ => none
  | .jmp _ => none
  | .jt _ _ => none
  | .jf _ _ => none
  | .wmem _ _ => none
  | .call _ => none
  | .ret => none
  | .out _ => none
  | .noop => none

/-- The five instructions that may set the pc explicitly (41_execution_loop.md R87). -/
def setsPc : Instr → Bool
  | .jmp _ => true
  | .jt _ _ => true
  | .jf _ _ => true
  | .call _ => true
  | .ret => true
  | .halt => false
  | .set _ _ => false
  | .push _ => false
  | .pop _ => false
  | .eq _ _ _ => false
  | .gt _ _ _ => false
  | .add _ _ _ => false
  | .mult _ _ _ => false
  | .mod _ _ _ => false
  | .and _ _ _ => false
  | .or _ _ _ => false
  | .not _ _ => false
  | .rmem _ _ => false
  | .wmem _ _ => false
  | .out _ => false
  | .inp _ => false
  | .noop => false

/-! ### How an instruction is encoded (30_encoding.md R51, R55) -/

/-- Format F0: one cell, the opcode. -/
def EncodedF0 (op : Nat) (i : Instr) : Prop :=
  ∀ rest, decode (BitVec.ofNat 16 op :: rest) = .ok (i, rest)

/-- Format F1: opcode, a. -/
def EncodedF1 (op : Nat) (mk : Operand → Instr) : Prop :=
  ∀ a rest, decode (BitVec.ofNat 16 op :: a :: rest) = .ok (mk (decodeOperand a), rest)

/-- Format F2: opcode, a, b. -/
def EncodedF2 (op : Nat) (mk : Operand → Operand → Instr) : Prop :=
  ∀ a b rest, decode (BitVec.ofNat 16 op :: a :: b :: rest) = .ok (mk (decodeOperand a) (decodeOperand b), rest)

/-- Format F3: opcode, a, b, c. -/
def EncodedF3 (op : Nat) (mk : Operand → Operand → Operand → Instr) : Prop :=
  ∀ a b c rest, decode (BitVec.ofNat 16 op :: a :: b :: c :: rest) =
    .ok (mk (decodeOperand a) (decodeOperand b) (decodeOperand c), rest)

end Sys2Proof.Machine
end

