-- ==== Sys2Proof/Certificates/Slice0/Obligations.lean ====
section
/-! DEFINITION. The statements for the provers, each from a numbered rule of spec/. Where a statement rests on a
decision or an inference the spec marks as its own, its docstring says so. -/

open Sys2Proof Sys2Proof.Machine

/-! ### Encoding (30_encoding.md) -/

/-- Decode and encode agree: no bit of any operand of any instruction is dropped, whatever cells follow
(30_encoding.md sections 1 to 3). -/
def Obligations.DecodeEncodeRoundTrip : Prop :=
  ∀ (i : Instr) (rest : List Cell), i.wellFormed = true → decode (encode i ++ rest) = .ok (i, rest)

/-- The other direction: what decodes is the encoding of the instruction read followed by the cells left, and that
instruction is well formed (30_encoding.md sections 1 to 3). -/
def Obligations.DecodedCellsAreTheEncoding : Prop :=
  ∀ (cells rest : List Cell) (i : Instr), decode cells = .ok (i, rest) →
    i.wellFormed = true ∧ encode i ++ rest = cells

/-- A few encodings written out from the spec's examples (42_halt_noop.md to 49_console_io.md; 95_test_vectors.md V34,
V133). -/
def Obligations.SpecWordsDecode : Prop :=
  decode [0, 7] = .ok (.halt, [7]) ∧
  decode [1, 32769, 1234] = .ok (.set (.reg 1) (.lit 1234), []) ∧
  decode [2, 6] = .ok (.push (.lit 6), []) ∧
  decode [4, 32768, 32776, 8] = .ok (.eq (.reg 0) (.outOfRange 32776) (.lit 8), []) ∧
  decode [7, 32768, 9] = .ok (.jt (.reg 0) (.lit 9), []) ∧
  decode [9, 32768, 32769, 4] = .ok (.add (.reg 0) (.reg 1) (.lit 4), []) ∧
  decode [16, 32775, 32767] = .ok (.wmem (.reg 7) (.lit 32767), []) ∧
  decode [17, 4] = .ok (.call (.lit 4), []) ∧
  decode [20, 32768] = .ok (.inp (.reg 0), []) ∧
  decode [32787, 72] = .error (.illegalOpcode 32787)

/-! ### Operand resolution (40_operand_resolution.md) -/

/-- R70: the classification of every raw operand cell under each policy, by its range. -/
def Obligations.OperandClassByRange : Prop :=
  ∀ (policy : OperandPolicy) (c : Cell),
    (c.toNat ≤ 32767 → ∃ n : Value, classify policy (decodeOperand c) = .ok (.lit n) ∧ n.toNat = c.toNat) ∧
    (32768 ≤ c.toNat → c.toNat ≤ 32775 →
      ∃ i : Fin 8, classify policy (decodeOperand c) = .ok (.reg i) ∧ i.val = c.toNat - 32768) ∧
    (32776 ≤ c.toNat → policy = .normalize →
      ∃ n : Value, classify policy (decodeOperand c) = .ok (.lit n) ∧ n.toNat = c.toNat % 32768) ∧
    (32776 ≤ c.toNat → policy = .reject → classify policy (decodeOperand c) = .error c)

/-- R72, R73: a result, any non-negative integer, is stored modulo 32768 at the register or the cell the operand
denotes, and nothing else changes. -/
def Obligations.WriteStoresModulo : Prop :=
  ∀ (s : State) (k : Resolved) (v : Nat), StoresResult s (s.write (target k) v) k v 0

/-- Under `reject` an instruction whose first out-of-range operand is the one at position `p` halts with that position
and cell and has no effect, whatever else is wrong with it. The code and the detail word are the spec's decision D8,
the order D11, the unchanged pc D9. -/
def Obligations.OutOfRangeOperandHalts : Prop :=
  ∀ (i : Instr) (s : State) (before after : List Operand) (c : Cell), s.policy = .reject →
    i.operands = before ++ .outOfRange c :: after → (∀ d, .outOfRange d ∉ before) →
    ∃ t, exec i s = .next t ∧ HaltsWith s t .outOfRangeOperand ((before.length + 1) * 65536 + c.toNat)

/-! ### The step (41_execution_loop.md) -/

/-- A running machine executes the instruction its decoder reads from the cells at the pc (R80, R85). -/
def Obligations.StepRunsDecodedInstruction : Prop :=
  ∀ (s : State) (i : Instr) (rest : List Cell), s.run = .running →
    decode (s.cellsFrom s.pc.toNat 4) = .ok (i, rest) → step s = exec i s

/-- The same in terms of memory: where the cells from the pc on hold a well-formed instruction whole, a step executes
it (R80 to R85). -/
def Obligations.StepRunsTheInstructionInMemory : Prop :=
  ∀ (s : State) (i : Instr), s.run = .running → i.wellFormed = true → s.pc.toNat + i.length ≤ 32768 →
    (∀ k, k < i.length → (encode i)[k]? = some (s.mem.read (s.pc.toNat + k))) → step s = exec i s

/-- R81: a pc above 32767 halts the machine before the fetch. Where the range is tested is the spec's decision D5; the
code and the detail word are its D8. -/
def Obligations.StepPcBeyondMemoryHalts : Prop :=
  ∀ s : State, s.run = .running → 32767 < s.pc.toNat →
    ∃ t, step s = .next t ∧ HaltsWith s t .pcOutOfRange s.pc.toNat

/-- R82: an opcode cell above 21 halts the machine, the cell compared whole and no operand looked at: the spec's decision
D7 (code and detail word D8). -/
def Obligations.StepIllegalOpcodeHalts : Prop :=
  ∀ s : State, s.run = .running → s.pc.toNat ≤ 32767 → 21 < (s.mem.read s.pc.toNat).toNat →
    ∃ t, step s = .next t ∧ HaltsWith s t .invalidOpcode (s.mem.read s.pc.toNat).toNat

/-- R83: an operand cell beyond the last cell halts the machine, memory does not wrap: the spec's decision D6 (code and
detail word D8). -/
def Obligations.StepMissingOperandCellHalts : Prop :=
  ∀ (s : State) (n : Nat), s.run = .running → s.pc.toNat ≤ 32767 → operandCount (s.mem.read s.pc.toNat) = some n →
    32767 < s.pc.toNat + n → ∃ t, step s = .next t ∧ HaltsWith s t .pcOutOfRange s.pc.toNat

/-- A halted machine is where any number of steps leaves it (R90, R160; the step as the identity is the spec's decision
D20). -/
def Obligations.HaltedMachineNeverMoves : Prop :=
  ∀ (k : Nat) (s : State), s.run = .halted → Host.Core.run core k s = .next s

/-- Every state has a next state: nothing in the spec stops a step but the halt, which is one, and the wait, which leaves
the state as it is (R80, R90, R184; that the wait is a step answering the same state is the model's choice, log
entry 7). -/
def Obligations.StepAlwaysAnswersNext : Prop :=
  ∀ s : State, ∃ t : State, step s = .next t ∧
    (s.run = .running → t.run = .halted ∨ t.run = .running ∧ t.cause = s.cause ∧ t.info = s.info) ∧
    (s.run = .halted → t = s)

/-- R159: a step that halts changes the status word alone, but for `halt`, which also advances the pc. The pc afterwards
is the spec's decision D9 and D10. -/
def Obligations.HaltsArePrecise : Prop :=
  ∀ s t : State, s.run = .running → step s = .next t → t.run = .halted →
    (t.cause = .haltInstr ∧ t = { s with pc := s.pc + 1, run := .halted, cause := .haltInstr, info := 0 }) ∨
    (t.cause ≠ .haltInstr ∧ t = { s with run := .halted, cause := t.cause, info := t.info })

/-- R88: a running machine halts in exactly the nine listed cases, each with its cause. The rows of the missing operand
cell and of the illegal opcode are the spec's decisions D6 and D7. -/
def Obligations.HaltsExactlyInTheListedCases : Prop :=
  ∀ s t : State, s.run = .running → step s = .next t →
    (t.run = .halted ↔
      (t.cause = .pcOutOfRange ∧ 32767 < s.pc.toNat) ∨
      (t.cause = .invalidOpcode ∧ s.pc.toNat ≤ 32767 ∧ 21 < (s.mem.read s.pc.toNat).toNat) ∨
      (t.cause = .pcOutOfRange ∧ s.pc.toNat ≤ 32767 ∧
        ∃ n, operandCount (s.mem.read s.pc.toNat) = some n ∧ 32767 < s.pc.toNat + n) ∨
      ∃ i rest, s.fetch = .ok (i, rest) ∧
        ((t.cause = .outOfRangeOperand ∧ s.policy = .reject ∧ ∃ c, .outOfRange c ∈ i.operands) ∨
          (t.cause = .haltInstr ∧ i = .halt) ∨
          (t.cause = .retEmpty ∧ i = .ret ∧ s.stack = []) ∨
          (t.cause = .stackUnderflow ∧ (∃ a, i = .pop a) ∧ s.stack = []) ∨
          (t.cause = .invalidWriteTarget ∧ ∃ a b n, i = .set a b ∧ classify s.policy a = .ok (.lit n)) ∨
          (t.cause = .divisionByZero ∧
            ∃ a b c k, i = .mod a b c ∧ classify s.policy c = .ok k ∧ s.value k = 0)))

/-! ### Reset (70_reset_and_hazards.md) -/

/-- R180: reset with any parameters. Register values are the argument REG_RESET (zero by the spec's decision D3 in
`State.reset`), cause, info and inbuf its decision D4, the refusal of an image that is too long its decision D17. -/
def Obligations.ResetPutsTheListedState : Prop :=
  State.resetWith .normalize (Vector.replicate 8 0) [] [] = some State.reset ∧
  ∀ (policy : OperandPolicy) (regs : Vector Value 8) (image : List Cell) (input : List Line),
    (32768 < image.length → State.resetWith policy regs image input = none) ∧
    (image.length ≤ 32768 → ∃ s, State.resetWith policy regs image input = some s ∧ s.regs = regs ∧ s.pc = 0 ∧
      s.stack = [] ∧ s.status = (.running, .none, 0) ∧ s.inbuf = [] ∧ s.policy = policy ∧ s.lines = input ∧
      s.output = [])

/-- R23: at reset memory is the image, and zero beyond it. -/
def Obligations.ResetMemoryIsImageThenZeros : Prop :=
  ∀ (policy : OperandPolicy) (regs : Vector Value 8) (image : List Cell) (input : List Line) (s : State),
    State.resetWith policy regs image input = some s →
    ∀ a, s.mem.read a = if h : a < image.length then image[a] else 0

/-- The invariant holds after every reset. -/
def Obligations.ResetMeetsInvariant : Prop :=
  State.reset.inv = true ∧
  ∀ (policy : OperandPolicy) (regs : Vector Value 8) (image : List Cell) (input : List Line) (s : State),
    State.resetWith policy regs image input = some s → s.inv = true

/-! ### The machine as a whole -/

/-- Every step keeps the invariant: memory stays canonical and inside the address space, the pc at most 32768, the status
word one of R151's rows (10_state.md R12, R16; 60_exceptions.md R151; 90_conflicts.md C9; codes and detail words are
the spec's decision D8). -/
def Obligations.StepKeepsInvariant : Prop :=
  ∀ s t : State, s.inv = true → step s = .next t → t.inv = true

/-- R155: under `normalize` no step reports an out-of-range operand, and no step changes the policy. -/
def Obligations.NormalizeNeverRejects : Prop :=
  ∀ s t : State, s.policy = .normalize → s.cause ≠ .outOfRangeOperand → step s = .next t →
    t.cause ≠ .outOfRangeOperand ∧ t.policy = .normalize

/-- R87, R86: an instruction that goes on advances the pc by its length unless it is a jump, call or return, which load
a value 0..32767 or advance by their length; a waiting `in` changes nothing (log entry 7). -/
def Obligations.OnlyTheJumpFamilySetsPc : Prop :=
  ∀ (i : Instr) (s t : State), s.run = .running → exec i s = .next t → t.run = .running →
    (setsPc i = false → t.pc = s.pc + BitVec.ofNat 16 i.length ∨ (t = s ∧ ∃ a, i = .inp a)) ∧
    (setsPc i = true → t.pc.toNat ≤ 32767 ∨ t.pc = s.pc + BitVec.ofNat 16 i.length)

/-- R30, C4: a cell changes only by `wmem` at the address its first operand denotes, or by an instruction with a write
target that is a literal, at that literal; never by `set`. -/
def Obligations.MemoryChangesOnlyByItsWriters : Prop :=
  ∀ (i : Instr) (s t : State) (a : Nat), exec i s = .next t → t.mem.read a ≠ s.mem.read a →
    (∃ x y k, i = .wmem x y ∧ classify s.policy x = .ok k ∧ a = (s.value k).toNat) ∨
    (∃ o n, targetOperand i = some o ∧ classify s.policy o = .ok (.lit n) ∧ a = n.toNat ∧ ∀ x y, i ≠ .set x y)

/-- R36: a cell that a step changes receives a value in 0..32767, its bit 15 is 0. -/
def Obligations.WrittenCellsHaveBit15Clear : Prop :=
  ∀ (s t : State) (a : Nat), step s = .next t → t.mem.read a ≠ s.mem.read a → (t.mem.read a).toNat ≤ 32767

/-- R10, R54: a register changes only where the write target of the instruction names it. -/
def Obligations.RegistersChangeOnlyAsTargets : Prop :=
  ∀ (i : Instr) (s t : State) (j : Fin 8), exec i s = .next t → t.reg j ≠ s.reg j →
    targetOperand i = some (.reg j)

/-- R13: the stack grows by one entry in `push` and `call`, loses its top in `pop` and `ret`, and is otherwise
untouched. -/
def Obligations.StackChangesOnlyByItsInstructions : Prop :=
  ∀ (i : Instr) (s t : State), exec i s = .next t →
    t.stack = s.stack ∨
    (((∃ a, i = .push a) ∨ ∃ a, i = .call a) ∧ ∃ v, t.stack = s.stack ++ [v]) ∨
    (((∃ a, i = .pop a) ∨ i = .ret) ∧ ∃ v, s.stack = t.stack ++ [v])

/-- R122, R123, R133: only `out` emits, its operand's value; only `in` takes codes, the next one of the buffer, or a
line and only when the buffer is empty. -/
def Obligations.OnlyOutEmitsOnlyInConsumes : Prop :=
  ∀ s t : State, step s = .next t →
    (t.output = s.output ∨ ∃ a k rest, s.fetch = .ok (.out a, rest) ∧ classify s.policy a = .ok k ∧
      t.output = s.output ++ [s.value k]) ∧
    ((t.inbuf = s.inbuf ∧ t.lines = s.lines) ∨ ∃ a ch rest, s.fetch = .ok (.inp a, rest) ∧
      ((s.inbuf = ch :: t.inbuf ∧ t.lines = s.lines) ∨
        (s.inbuf = [] ∧ consoleReadLine s.lines = some (ch, t.inbuf, t.lines))))

/-- R19: what was emitted is an observation, no step reads it: with any other record of earlier output a step does the
same and adds the same code. -/
def Obligations.OutputIsNeverRead : Prop :=
  ∀ (s t : State) (earlier : List Value), step s = .next t →
    step { s with output := earlier ++ s.output } = .next { t with output := earlier ++ t.output }

/-- R39: the cell a `wmem` stores is what the very next fetch of that cell reads, as an opcode and with the cells after
it, with no action in between. -/
def Obligations.StoreIsSeenByTheNextFetch : Prop :=
  ∀ (s : State) (a b : Operand) (ka kb : Resolved), classify s.policy a = .ok ka → classify s.policy b = .ok kb →
    ∃ t, exec (.wmem a b) s = .next t ∧
      ∀ u : State, u.mem = t.mem → u.pc.toNat = (s.value ka).toNat →
        u.fetch = decode ((s.value kb).setWidth 16 :: s.cellsFrom ((s.value ka).toNat + 1) 3)

/-- R13: pushing v1, v2 then popping twice yields v2 then v1, and leaves the stack as it was. -/
def Obligations.StackIsLastInFirstOut : Prop :=
  ∀ (s : State) (x y : Value) (i j : Fin 8), i ≠ j →
    ∃ s1 s2 s3 s4, exec (.push (.lit x)) s = .next s1 ∧ exec (.push (.lit y)) s1 = .next s2 ∧
      exec (.pop (.reg i)) s2 = .next s3 ∧ exec (.pop (.reg j)) s3 = .next s4 ∧
      s4.reg i = y ∧ s4.reg j = x ∧ s4.stack = s.stack

/-- The source's property of `call` and `ret`: the return resumes at the call's address + 2, from any state with the
stack the call left, whatever ran in between. -/
def Obligations.CallThenRetResumes : Prop :=
  ∀ (s : State) (a : Operand) (k : Resolved), classify s.policy a = .ok k → s.pc.toNat + 2 ≤ 32767 →
    ∃ t, exec (.call a) s = .next t ∧ t.pc.toNat = (s.value k).toNat ∧
      ∀ u : State, u.stack = t.stack →
        ∃ w, exec .ret u = .next w ∧ w.pc.toNat = s.pc.toNat + 2 ∧ w.stack = s.stack

/-- R91, R160: the typed result of a run, once there, is the result for all further fuel. -/
def Obligations.HostRunResultIsStable : Prop :=
  ∀ (s : State) (fuel more : Nat) (r : Cause × Info), hostRun fuel s = some r → hostRun (fuel + more) s = some r

/-! ### The instructions, in the order of the table (42_halt_noop.md to 49_console_io.md) -/

/-- `halt`: the pc after it is the spec's decision D10, the code D8. -/
def Obligations.HaltAdvancesAndHalts : Prop :=
  EncodedF0 0 .halt ∧
  ∀ s : State, exec .halt s = .next { s with pc := s.pc + 1, run := .halted, cause := .haltInstr, info := 0 }

/-- `set` with a register as operand `a`. -/
def Obligations.SetLoadsRegister : Prop :=
  EncodedF2 1 .set ∧
  ∀ (s : State) (i : Fin 8) (b : Operand) (kb : Resolved), classify s.policy b = .ok kb →
    ∃ t, exec (.set (.reg i) b) s = .next t ∧ StoresResult s t (.reg i) (s.value kb).toNat 3

/-- `set` with a literal, or a cell normalised to one, as operand `a` halts with the raw cell; memory is not written.
The code and the detail word are the spec's decision D8, the unchanged pc D9. -/
def Obligations.SetWithoutRegisterHalts : Prop :=
  ∀ (s : State) (a b : Operand) (n : Value) (kb : Resolved), classify s.policy a = .ok (.lit n) →
    classify s.policy b = .ok kb → ∃ t, exec (.set a b) s = .next t ∧ HaltsWith s t .invalidWriteTarget a.cell.toNat

/-- `push` (R103). -/
def Obligations.PushAppends : Prop :=
  EncodedF1 2 .push ∧
  ∀ (s : State) (a : Operand) (ka : Resolved), classify s.policy a = .ok ka →
    exec (.push a) s = .next { s with stack := s.stack ++ [s.value ka], pc := s.pc + 2 }

/-- `pop` with something on the stack. -/
def Obligations.PopStoresTheTop : Prop :=
  EncodedF1 3 .pop ∧
  ∀ (s : State) (a : Operand) (ka : Resolved) (st : List Value) (v : Value), classify s.policy a = .ok ka →
    s.stack = st ++ [v] → ∃ t, exec (.pop a) s = .next t ∧ StoresResult { s with stack := st } t ka v.toNat 2

/-- `pop` with an empty stack. The code is the spec's decision D8, the unchanged pc D9. -/
def Obligations.PopEmptyHalts : Prop :=
  ∀ (s : State) (a : Operand) (ka : Resolved), classify s.policy a = .ok ka → s.stack = [] →
    ∃ t, exec (.pop a) s = .next t ∧ HaltsWith s t .stackUnderflow 0

/-- `eq` (R105). -/
def Obligations.EqStoresTruth : Prop :=
  EncodedF3 4 .eq ∧
  ∀ (s : State) (a b c : Operand) (ka kb kc : Resolved), classify s.policy a = .ok ka → classify s.policy b = .ok kb →
    classify s.policy c = .ok kc →
    ∃ t, exec (.eq a b c) s = .next t ∧ StoresResult s t ka (if s.value kb = s.value kc then 1 else 0) 4

/-- `gt`, on the unsigned integers, which the spec derives from the value space. -/
def Obligations.GtStoresTruth : Prop :=
  EncodedF3 5 .gt ∧
  ∀ (s : State) (a b c : Operand) (ka kb kc : Resolved), classify s.policy a = .ok ka → classify s.policy b = .ok kb →
    classify s.policy c = .ok kc →
    ∃ t, exec (.gt a b c) s = .next t ∧
      StoresResult s t ka (if (s.value kc).toNat < (s.value kb).toNat then 1 else 0) 4

/-- `jmp` (R107). -/
def Obligations.JmpLoadsPc : Prop :=
  EncodedF1 6 .jmp ∧
  ∀ (s : State) (a : Operand) (ka : Resolved), classify s.policy a = .ok ka →
    exec (.jmp a) s = .next { s with pc := BitVec.ofNat 16 (s.value ka).toNat }

/-- `jt` (R108). -/
def Obligations.JtJumpsIfNonZero : Prop :=
  EncodedF2 7 .jt ∧
  ∀ (s : State) (a b : Operand) (ka kb : Resolved), classify s.policy a = .ok ka → classify s.policy b = .ok kb →
    exec (.jt a b) s =
      .next { s with pc := if s.value ka ≠ 0 then BitVec.ofNat 16 (s.value kb).toNat else s.pc + 3 }

/-- `jf` (R109). -/
def Obligations.JfJumpsIfZero : Prop :=
  EncodedF2 8 .jf ∧
  ∀ (s : State) (a b : Operand) (ka kb : Resolved), classify s.policy a = .ok ka → classify s.policy b = .ok kb →
    exec (.jf a b) s =
      .next { s with pc := if s.value ka = 0 then BitVec.ofNat 16 (s.value kb).toNat else s.pc + 3 }

/-- `add` (R110). -/
def Obligations.AddStoresSum : Prop :=
  EncodedF3 9 .add ∧
  ∀ (s : State) (a b c : Operand) (ka kb kc : Resolved), classify s.policy a = .ok ka → classify s.policy b = .ok kb →
    classify s.policy c = .ok kc →
    ∃ t, exec (.add a b c) s = .next t ∧ StoresResult s t ka ((s.value kb).toNat + (s.value kc).toNat) 4

/-- `mult` (R111). -/
def Obligations.MultStoresProduct : Prop :=
  EncodedF3 10 .mult ∧
  ∀ (s : State) (a b c : Operand) (ka kb kc : Resolved), classify s.policy a = .ok ka → classify s.policy b = .ok kb →
    classify s.policy c = .ok kc →
    ∃ t, exec (.mult a b c) s = .next t ∧ StoresResult s t ka ((s.value kb).toNat * (s.value kc).toNat) 4

/-- `mod` with a divisor that is not 0: the remainder `r` with `0 <= r < value(c)` and
`value(b) = q * value(c) + r`. -/
def Obligations.ModStoresRemainder : Prop :=
  EncodedF3 11 .mod ∧
  ∀ (s : State) (a b c : Operand) (ka kb kc : Resolved), classify s.policy a = .ok ka → classify s.policy b = .ok kb →
    classify s.policy c = .ok kc → s.value kc ≠ 0 →
    ∃ (t : State) (q r : Nat), exec (.mod a b c) s = .next t ∧ StoresResult s t ka r 4 ∧
      r < (s.value kc).toNat ∧ (s.value kb).toNat = q * (s.value kc).toNat + r

/-- `mod` with a divisor whose value is 0. The code is the spec's decision D8, the unchanged pc D9. -/
def Obligations.ModByZeroHalts : Prop :=
  ∀ (s : State) (a b c : Operand) (ka kb kc : Resolved), classify s.policy a = .ok ka → classify s.policy b = .ok kb →
    classify s.policy c = .ok kc → s.value kc = 0 →
    ∃ t, exec (.mod a b c) s = .next t ∧ HaltsWith s t .divisionByZero 0

/-- `and` (R113): bit i of the result is bit i of both, i in 0..14. -/
def Obligations.AndStoresCommonBits : Prop :=
  EncodedF3 12 .and ∧
  ∀ (s : State) (a b c : Operand) (ka kb kc : Resolved), classify s.policy a = .ok ka → classify s.policy b = .ok kb →
    classify s.policy c = .ok kc →
    ∃ (t : State) (r : Value), exec (.and a b c) s = .next t ∧ StoresResult s t ka r.toNat 4 ∧
      ∀ n, n < 15 → r.getLsbD n = ((s.value kb).getLsbD n && (s.value kc).getLsbD n)

/-- `or` (R114): bit i of the result is bit i of either, i in 0..14. -/
def Obligations.OrStoresEitherBits : Prop :=
  EncodedF3 13 .or ∧
  ∀ (s : State) (a b c : Operand) (ka kb kc : Resolved), classify s.policy a = .ok ka → classify s.policy b = .ok kb →
    classify s.policy c = .ok kc →
    ∃ (t : State) (r : Value), exec (.or a b c) s = .next t ∧ StoresResult s t ka r.toNat 4 ∧
      ∀ n, n < 15 → r.getLsbD n = ((s.value kb).getLsbD n || (s.value kc).getLsbD n)

/-- `not`: the 15-bit complement, bit by bit, which is 32767 less the value by the spec's own arithmetic. -/
def Obligations.NotStoresComplement : Prop :=
  EncodedF2 14 .not ∧
  ∀ (s : State) (a b : Operand) (ka kb : Resolved), classify s.policy a = .ok ka → classify s.policy b = .ok kb →
    ∃ (t : State) (r : Value), exec (.not a b) s = .next t ∧ StoresResult s t ka r.toNat 3 ∧
      r.toNat = 32767 - (s.value kb).toNat ∧ ∀ n, n < 15 → r.getLsbD n = !(s.value kb).getLsbD n

/-- `rmem`: the raw cell at the address, modulo 32768 and not classified, which the spec derives from R73. -/
def Obligations.RmemStoresTheCell : Prop :=
  EncodedF2 15 .rmem ∧
  ∀ (s : State) (a b : Operand) (ka kb : Resolved), classify s.policy a = .ok ka → classify s.policy b = .ok kb →
    ∃ t, exec (.rmem a b) s = .next t ∧ StoresResult s t ka (s.mem.read (s.value kb).toNat).toNat 3

/-- `wmem` (R119): always the memory cell, even when operand `a` is a register reference; the register stays as it is. -/
def Obligations.WmemStoresTheValue : Prop :=
  EncodedF2 16 .wmem ∧
  ∀ (s : State) (a b : Operand) (ka kb : Resolved), classify s.policy a = .ok ka → classify s.policy b = .ok kb →
    ∃ t, exec (.wmem a b) s = .next t ∧ StoresResult s t (.lit (s.value ka)) (s.value kb).toNat 3

/-- `call`: the return address reduced modulo 32768 is the spec's decision D12. -/
def Obligations.CallPushesReturnAddress : Prop :=
  EncodedF1 17 .call ∧
  ∀ (s : State) (a : Operand) (ka : Resolved), classify s.policy a = .ok ka →
    exec (.call a) s = .next { s with
      stack := s.stack ++ [BitVec.ofNat 15 ((s.pc.toNat + 2) % 32768)]
      pc := BitVec.ofNat 16 (s.value ka).toNat }

/-- `ret` with something on the stack. -/
def Obligations.RetJumpsToThePopped : Prop :=
  EncodedF0 18 .ret ∧
  ∀ (s : State) (st : List Value) (v : Value), s.stack = st ++ [v] →
    exec .ret s = .next { s with stack := st, pc := BitVec.ofNat 16 v.toNat }

/-- `ret` with an empty stack: a clean halt; the unchanged pc is the spec's decision D10, the code D8. -/
def Obligations.RetEmptyHaltsCleanly : Prop :=
  ∀ s : State, s.stack = [] →
    ∃ t, exec .ret s = .next t ∧ HaltsWith s t .retEmpty 0 ∧ t.cause.resultClass = .clean

/-- `out`: the whole value, uninterpreted, which is the spec's decision D21. -/
def Obligations.OutEmitsTheValue : Prop :=
  EncodedF1 19 .out ∧
  ∀ (s : State) (a : Operand) (ka : Resolved), classify s.policy a = .ok ka →
    exec (.out a) s = .next { s with output := s.output ++ [s.value ka], pc := s.pc + 2 }

/-- `in` with codes in the buffer: the next one, no line is read. A code above 32767 is reduced by the spec's decision
D14. -/
def Obligations.InDeliversTheNextCode : Prop :=
  EncodedF1 20 .inp ∧
  ∀ (s : State) (a : Operand) (ka : Resolved) (ch : Code) (rest : List Code), classify s.policy a = .ok ka →
    s.inbuf = ch :: rest → ∃ t, exec (.inp a) s = .next t ∧ StoresResult { s with inbuf := rest } t ka ch 2

/-- `in` with an empty buffer and a line delivered: the whole line is read, its first code stored. A line with no codes
is passed over and a code above 32767 reduced by the spec's decision D14. -/
def Obligations.InReadsALine : Prop :=
  ∀ (s : State) (a : Operand) (ka : Resolved) (empty : List Line) (ch : Code) (line : Line) (left : List Line),
    classify s.policy a = .ok ka → s.inbuf = [] → s.lines = empty ++ (ch :: line) :: left →
    empty.all List.isEmpty = true →
    ∃ t, exec (.inp a) s = .next t ∧ StoresResult { s with inbuf := line, lines := left } t ka ch 2

/-- `in` with nothing buffered and no line delivered waits: no state has changed, and it is still RUNNING. That the step
answers the same state is the model's choice, log entry 7. -/
def Obligations.InWaitsWithoutALine : Prop :=
  ∀ (s : State) (a : Operand) (ka : Resolved), classify s.policy a = .ok ka → s.inbuf = [] →
    s.lines.all List.isEmpty = true → exec (.inp a) s = .next s

/-- R167: a machine in its wait state stays there unchanged, and the delivery of a line ends the wait: the next step
completes the `in` with the line's first code. That the wait is a step answering the same state is the model's choice,
log entry 7. -/
def Obligations.WaitEndsWhenALineIsDelivered : Prop :=
  ∀ s : State, s.waiting = true →
    step s = .next s ∧
    ∀ (ch : Code) (line : Line), ∃ (t : State) (a : Operand) (ka : Resolved) (rest : List Cell),
      s.fetch = .ok (.inp a, rest) ∧ classify s.policy a = .ok ka ∧
      step (s.deliverLine (ch :: line)) = .next t ∧ StoresResult { s with inbuf := line, lines := [] } t ka ch 2

/-- `noop` (R101): only the pc changes. -/
def Obligations.NoopOnlyAdvances : Prop :=
  EncodedF0 21 .noop ∧ ∀ s : State, exec .noop s = .next { s with pc := s.pc + 1 }
end

