-- ==== Sys2Proof/Laws/Memory.lean ====
section
/-! SUPPORT. Memory: a read after a write, and that every operation keeps the canonical form. -/

namespace Sys2Proof.Machine

/-! ### Reading after erase, insert, write -/

theorem Memory.read_erase (m : Memory) (a b : Nat) : (m.erase a).read b = if b = a then 0 else m.read b := by
  induction m with
  | nil => simp [Memory.erase, Memory.read]
  | cons e m ih =>
    obtain ⟨k, c⟩ := e
    unfold Memory.erase at ih ⊢
    by_cases hk : k = a
    · subst hk
      by_cases hb : b = k
      · simp [hb] at ih ⊢; exact ih
      · simp [hb, Ne.symm hb, Memory.read] at ih ⊢; exact ih
    · by_cases hb : k = b
      · subst hb; simp [hk, Memory.read]
      · simp [hk, hb, Memory.read] at ih ⊢; exact ih

theorem Memory.read_insert_self (m : Memory) (a : Nat) (c : Cell) (h : ∀ e ∈ m, e.1 ≠ a) :
    (m.insert a c).read a = c := by
  induction m with
  | nil => simp [Memory.insert, Memory.read]
  | cons e m ih =>
    have he : e.1 ≠ a := h e (by simp)
    unfold Memory.insert
    split
    · simp [Memory.read]
    · simp only [Memory.read, he, if_false]
      exact ih fun x hx => h x (by simp [hx])

theorem Memory.read_insert_ne (m : Memory) (a b : Nat) (c : Cell) (h : b ≠ a) :
    (m.insert a c).read b = m.read b := by
  induction m with
  | nil => simp [Memory.insert, Memory.read, Ne.symm h]
  | cons e m ih =>
    unfold Memory.insert
    split
    · simp [Memory.read, Ne.symm h]
    · simp only [Memory.read, ih]

/-- A cell reads what was last written to it, and every other cell as before (20_memory.md R33, R37). It holds of every
list, canonical or not. -/
theorem Memory.read_write (m : Memory) (a b : Nat) (c : Cell) :
    (m.write a c).read b = if b = a then c else m.read b := by
  unfold Memory.write
  by_cases hb : b = a
  · subst hb
    split
    · next hc => simp [Memory.read_erase, hc]
    · rw [Memory.read_insert_self]
      · simp
      · intro e he; simp [Memory.erase] at he; exact he.2
  · split
    · simp [Memory.read_erase, hb]
    · simp [Memory.read_insert_ne, Memory.read_erase, hb]

@[simp] theorem State.read_memWrite (s : State) (a v : Value) (b : Nat) :
    (s.memWrite a v).mem.read b = if b = a.toNat then v.setWidth 16 else s.mem.read b :=
  Memory.read_write ..

/-! ### The canonical form -/

theorem Memory.wfFrom_mono {m : Memory} {lo hi : Nat} (h : lo ≤ hi) (hw : Memory.wfFrom hi m = true) :
    Memory.wfFrom lo m = true := by
  cases m with
  | nil => rfl
  | cons e m =>
    simp only [Memory.wfFrom, Bool.and_eq_true, decide_eq_true_eq] at hw ⊢
    exact ⟨⟨⟨by omega, hw.1.1.2⟩, hw.1.2⟩, hw.2⟩

theorem Memory.wfFrom_erase {m : Memory} {lo : Nat} (a : Nat) (hw : Memory.wfFrom lo m = true) :
    Memory.wfFrom lo (m.erase a) = true := by
  induction m generalizing lo with
  | nil => rfl
  | cons e m ih =>
    simp only [Memory.wfFrom, Bool.and_eq_true, decide_eq_true_eq] at hw
    have ih' := ih hw.2
    unfold Memory.erase at ih' ⊢
    rw [List.filter_cons]
    split
    · simp only [Memory.wfFrom, Bool.and_eq_true, decide_eq_true_eq]
      exact ⟨hw.1, ih'⟩
    · exact Memory.wfFrom_mono (by omega) ih'

theorem Memory.wfFrom_insert {m : Memory} {lo a : Nat} {c : Cell} (hl : lo ≤ a) (ha : a < 32768) (hc : c ≠ 0)
    (hm : ∀ e ∈ m, e.1 ≠ a) (hw : Memory.wfFrom lo m = true) : Memory.wfFrom lo (m.insert a c) = true := by
  induction m generalizing lo with
  | nil => simpa [Memory.insert, Memory.wfFrom, hl, ha] using hc
  | cons e m ih =>
    have he : e.1 ≠ a := hm e (by simp)
    simp only [Memory.wfFrom, Bool.and_eq_true, decide_eq_true_eq] at hw
    unfold Memory.insert
    split
    · next h =>
      simp only [Memory.wfFrom, Bool.and_eq_true, decide_eq_true_eq, bne_iff_ne]
      exact ⟨⟨⟨hl, ha⟩, hc⟩, ⟨⟨by omega, hw.1.1.2⟩, by simpa using hw.1.2⟩, hw.2⟩
    · next h =>
      simp only [Memory.wfFrom, Bool.and_eq_true, decide_eq_true_eq]
      exact ⟨hw.1, ih (by omega) (fun x hx => hm x (by simp [hx])) hw.2⟩

/-- A write inside the address space keeps memory canonical. -/
theorem Memory.wf_write {m : Memory} {a : Nat} (c : Cell) (ha : a < 32768) (hw : m.wf = true) :
    (m.write a c).wf = true := by
  unfold Memory.write Memory.wf at *
  split
  · exact Memory.wfFrom_erase a hw
  · next hc =>
    refine Memory.wfFrom_insert (Nat.zero_le a) ha hc ?_ (Memory.wfFrom_erase a hw)
    intro e he; simp [Memory.erase] at he; exact he.2

/-- The machine's own writes keep memory canonical: their address is a value, so it exists (20_memory.md R35). -/
theorem State.wf_memWrite {s : State} (a v : Value) (hw : s.mem.wf = true) : (s.memWrite a v).mem.wf = true :=
  Memory.wf_write _ a.isLt hw

theorem Memory.wfFrom_ofImage (image : List Cell) (a : Nat) (h : a + image.length ≤ 32768) :
    Memory.wfFrom a (Memory.ofImage a image) = true := by
  induction image generalizing a with
  | nil => rfl
  | cons c image ih =>
    simp only [List.length_cons] at h
    have ih' := ih (a + 1) (by omega)
    unfold Memory.ofImage
    split
    · exact Memory.wfFrom_mono (Nat.le_succ a) ih'
    · next hc =>
      simp only [Memory.wfFrom, Bool.and_eq_true, decide_eq_true_eq, bne_iff_ne]
      exact ⟨⟨⟨Nat.le_refl a, by omega⟩, hc⟩, ih'⟩

/-- An image that fits gives a canonical memory. -/
theorem Memory.wf_ofImage (image : List Cell) (h : image.length ≤ 32768) : (Memory.ofImage 0 image).wf = true :=
  Memory.wfFrom_ofImage image 0 (by omega)

theorem Memory.read_ofImage_lt (image : List Cell) (a b : Nat) (h : b < a) : (Memory.ofImage a image).read b = 0 := by
  induction image generalizing a with
  | nil => rfl
  | cons c image ih =>
    unfold Memory.ofImage
    split
    · exact ih (a + 1) (by omega)
    · have : a ≠ b := by omega
      simp only [Memory.read, this, if_false]
      exact ih (a + 1) (by omega)

/-- Cell `k` of an image placed from address `a` on is read at `a + k`, and 0 beyond the image (10_state.md R23). -/
theorem Memory.read_ofImage (image : List Cell) (a k : Nat) :
    (Memory.ofImage a image).read (a + k) = image.getD k 0 := by
  induction image generalizing a k with
  | nil => simp [Memory.ofImage, Memory.read]
  | cons c image ih =>
    unfold Memory.ofImage
    cases k with
    | zero =>
      split
      · next hc => simp [hc, Memory.read_ofImage_lt image (a + 1) a (by omega)]
      · simp [Memory.read]
    | succ k =>
      have e : a + (k + 1) = a + 1 + k := by omega
      split
      · rw [e, ih]; simp
      · have : a ≠ a + (k + 1) := by omega
        simp only [Memory.read, this, if_false]
        rw [e, ih]; simp

/-- The memory after reset is canonical. -/
theorem State.wf_reset : State.reset.mem.wf = true := rfl

end Sys2Proof.Machine
end

