-- ==== Sys2Proof/Laws/State.lean ====
section
/-! SUPPORT. What every update of the state does to every field, one lemma each, all by rfl. -/

namespace Sys2Proof.Machine

variable (s : State)

/-! ### memWrite -/

@[simp] theorem State.memWrite_regs (a v : Value) : (s.memWrite a v).regs = s.regs := rfl
@[simp] theorem State.memWrite_pc (a v : Value) : (s.memWrite a v).pc = s.pc := rfl
@[simp] theorem State.memWrite_stack (a v : Value) : (s.memWrite a v).stack = s.stack := rfl
@[simp] theorem State.memWrite_mem (a v : Value) : (s.memWrite a v).mem = s.mem.write a.toNat (v.setWidth 16) := rfl
@[simp] theorem State.memWrite_run (a v : Value) : (s.memWrite a v).run = s.run := rfl
@[simp] theorem State.memWrite_cause (a v : Value) : (s.memWrite a v).cause = s.cause := rfl
@[simp] theorem State.memWrite_info (a v : Value) : (s.memWrite a v).info = s.info := rfl
@[simp] theorem State.memWrite_inbuf (a v : Value) : (s.memWrite a v).inbuf = s.inbuf := rfl
@[simp] theorem State.memWrite_policy (a v : Value) : (s.memWrite a v).policy = s.policy := rfl
@[simp] theorem State.memWrite_lines (a v : Value) : (s.memWrite a v).lines = s.lines := rfl
@[simp] theorem State.memWrite_output (a v : Value) : (s.memWrite a v).output = s.output := rfl

/-! ### setReg -/

@[simp] theorem State.setReg_regs (i : Fin 8) (v : Value) : (s.setReg i v).regs = s.regs.set i v := rfl
@[simp] theorem State.setReg_pc (i : Fin 8) (v : Value) : (s.setReg i v).pc = s.pc := rfl
@[simp] theorem State.setReg_stack (i : Fin 8) (v : Value) : (s.setReg i v).stack = s.stack := rfl
@[simp] theorem State.setReg_mem (i : Fin 8) (v : Value) : (s.setReg i v).mem = s.mem := rfl
@[simp] theorem State.setReg_run (i : Fin 8) (v : Value) : (s.setReg i v).run = s.run := rfl
@[simp] theorem State.setReg_cause (i : Fin 8) (v : Value) : (s.setReg i v).cause = s.cause := rfl
@[simp] theorem State.setReg_info (i : Fin 8) (v : Value) : (s.setReg i v).info = s.info := rfl
@[simp] theorem State.setReg_inbuf (i : Fin 8) (v : Value) : (s.setReg i v).inbuf = s.inbuf := rfl
@[simp] theorem State.setReg_policy (i : Fin 8) (v : Value) : (s.setReg i v).policy = s.policy := rfl
@[simp] theorem State.setReg_lines (i : Fin 8) (v : Value) : (s.setReg i v).lines = s.lines := rfl
@[simp] theorem State.setReg_output (i : Fin 8) (v : Value) : (s.setReg i v).output = s.output := rfl

/-! ### advance -/

@[simp] theorem State.advance_regs (len : Nat) : (s.advance len).regs = s.regs := rfl
@[simp] theorem State.advance_pc (len : Nat) : (s.advance len).pc = s.pc + BitVec.ofNat 16 len := rfl
@[simp] theorem State.advance_stack (len : Nat) : (s.advance len).stack = s.stack := rfl
@[simp] theorem State.advance_mem (len : Nat) : (s.advance len).mem = s.mem := rfl
@[simp] theorem State.advance_run (len : Nat) : (s.advance len).run = s.run := rfl
@[simp] theorem State.advance_cause (len : Nat) : (s.advance len).cause = s.cause := rfl
@[simp] theorem State.advance_info (len : Nat) : (s.advance len).info = s.info := rfl
@[simp] theorem State.advance_inbuf (len : Nat) : (s.advance len).inbuf = s.inbuf := rfl
@[simp] theorem State.advance_policy (len : Nat) : (s.advance len).policy = s.policy := rfl
@[simp] theorem State.advance_lines (len : Nat) : (s.advance len).lines = s.lines := rfl
@[simp] theorem State.advance_output (len : Nat) : (s.advance len).output = s.output := rfl

/-! ### jump -/

@[simp] theorem State.jump_regs (v : Value) : (s.jump v).regs = s.regs := rfl
@[simp] theorem State.jump_pc (v : Value) : (s.jump v).pc = v.setWidth 16 := rfl
@[simp] theorem State.jump_stack (v : Value) : (s.jump v).stack = s.stack := rfl
@[simp] theorem State.jump_mem (v : Value) : (s.jump v).mem = s.mem := rfl
@[simp] theorem State.jump_run (v : Value) : (s.jump v).run = s.run := rfl
@[simp] theorem State.jump_cause (v : Value) : (s.jump v).cause = s.cause := rfl
@[simp] theorem State.jump_info (v : Value) : (s.jump v).info = s.info := rfl
@[simp] theorem State.jump_inbuf (v : Value) : (s.jump v).inbuf = s.inbuf := rfl
@[simp] theorem State.jump_policy (v : Value) : (s.jump v).policy = s.policy := rfl
@[simp] theorem State.jump_lines (v : Value) : (s.jump v).lines = s.lines := rfl
@[simp] theorem State.jump_output (v : Value) : (s.jump v).output = s.output := rfl

/-! ### push -/

@[simp] theorem State.push_regs (v : Value) : (s.push v).regs = s.regs := rfl
@[simp] theorem State.push_pc (v : Value) : (s.push v).pc = s.pc := rfl
@[simp] theorem State.push_stack (v : Value) : (s.push v).stack = s.stack ++ [v] := rfl
@[simp] theorem State.push_mem (v : Value) : (s.push v).mem = s.mem := rfl
@[simp] theorem State.push_run (v : Value) : (s.push v).run = s.run := rfl
@[simp] theorem State.push_cause (v : Value) : (s.push v).cause = s.cause := rfl
@[simp] theorem State.push_info (v : Value) : (s.push v).info = s.info := rfl
@[simp] theorem State.push_inbuf (v : Value) : (s.push v).inbuf = s.inbuf := rfl
@[simp] theorem State.push_policy (v : Value) : (s.push v).policy = s.policy := rfl
@[simp] theorem State.push_lines (v : Value) : (s.push v).lines = s.lines := rfl
@[simp] theorem State.push_output (v : Value) : (s.push v).output = s.output := rfl

/-! ### haltWith -/

@[simp] theorem State.haltWith_regs (c : Cause) (info : Info) : (s.haltWith c info).regs = s.regs := rfl
@[simp] theorem State.haltWith_pc (c : Cause) (info : Info) : (s.haltWith c info).pc = s.pc := rfl
@[simp] theorem State.haltWith_stack (c : Cause) (info : Info) : (s.haltWith c info).stack = s.stack := rfl
@[simp] theorem State.haltWith_mem (c : Cause) (info : Info) : (s.haltWith c info).mem = s.mem := rfl
@[simp] theorem State.haltWith_run (c : Cause) (info : Info) : (s.haltWith c info).run = .halted := rfl
@[simp] theorem State.haltWith_cause (c : Cause) (info : Info) : (s.haltWith c info).cause = c := rfl
@[simp] theorem State.haltWith_info (c : Cause) (info : Info) : (s.haltWith c info).info = info := rfl
@[simp] theorem State.haltWith_inbuf (c : Cause) (info : Info) : (s.haltWith c info).inbuf = s.inbuf := rfl
@[simp] theorem State.haltWith_policy (c : Cause) (info : Info) : (s.haltWith c info).policy = s.policy := rfl
@[simp] theorem State.haltWith_lines (c : Cause) (info : Info) : (s.haltWith c info).lines = s.lines := rfl
@[simp] theorem State.haltWith_output (c : Cause) (info : Info) : (s.haltWith c info).output = s.output := rfl

/-! ### emit -/

@[simp] theorem State.emit_regs (v : Value) : (s.emit v).regs = s.regs := rfl
@[simp] theorem State.emit_pc (v : Value) : (s.emit v).pc = s.pc := rfl
@[simp] theorem State.emit_stack (v : Value) : (s.emit v).stack = s.stack := rfl
@[simp] theorem State.emit_mem (v : Value) : (s.emit v).mem = s.mem := rfl
@[simp] theorem State.emit_run (v : Value) : (s.emit v).run = s.run := rfl
@[simp] theorem State.emit_cause (v : Value) : (s.emit v).cause = s.cause := rfl
@[simp] theorem State.emit_info (v : Value) : (s.emit v).info = s.info := rfl
@[simp] theorem State.emit_inbuf (v : Value) : (s.emit v).inbuf = s.inbuf := rfl
@[simp] theorem State.emit_policy (v : Value) : (s.emit v).policy = s.policy := rfl
@[simp] theorem State.emit_lines (v : Value) : (s.emit v).lines = s.lines := rfl
@[simp] theorem State.emit_output (v : Value) : (s.emit v).output = s.output ++ [v] := rfl

/-! ### deliverLine -/

@[simp] theorem State.deliverLine_regs (line : Line) : (s.deliverLine line).regs = s.regs := rfl
@[simp] theorem State.deliverLine_pc (line : Line) : (s.deliverLine line).pc = s.pc := rfl
@[simp] theorem State.deliverLine_stack (line : Line) : (s.deliverLine line).stack = s.stack := rfl
@[simp] theorem State.deliverLine_mem (line : Line) : (s.deliverLine line).mem = s.mem := rfl
@[simp] theorem State.deliverLine_run (line : Line) : (s.deliverLine line).run = s.run := rfl
@[simp] theorem State.deliverLine_cause (line : Line) : (s.deliverLine line).cause = s.cause := rfl
@[simp] theorem State.deliverLine_info (line : Line) : (s.deliverLine line).info = s.info := rfl
@[simp] theorem State.deliverLine_inbuf (line : Line) : (s.deliverLine line).inbuf = s.inbuf := rfl
@[simp] theorem State.deliverLine_policy (line : Line) : (s.deliverLine line).policy = s.policy := rfl
@[simp] theorem State.deliverLine_lines (line : Line) : (s.deliverLine line).lines = s.lines ++ [line] := rfl
@[simp] theorem State.deliverLine_output (line : Line) : (s.deliverLine line).output = s.output := rfl

/-- No advance is no change. -/
@[simp] theorem State.advance_zero : s.advance 0 = s := by
  simp [State.advance]

/-! ### The detail words as numbers (60_exceptions.md R151) -/

theorem pcInfo_eq (pc : Pc) : pcInfo pc = BitVec.ofNat 18 pc.toNat := by
  apply BitVec.eq_of_toNat_eq
  rw [pcInfo, BitVec.toNat_setWidth, BitVec.toNat_ofNat]

theorem cellInfo_eq (c : Cell) : cellInfo c = BitVec.ofNat 18 c.toNat := by
  apply BitVec.eq_of_toNat_eq
  rw [cellInfo, BitVec.toNat_setWidth, BitVec.toNat_ofNat]

/-- A position and a cell are read back from their detail word. -/
theorem toNat_operandInfo {p : Nat} (hp : p ≤ 3) (c : Cell) : (operandInfo p c).toNat = p * 65536 + c.toNat := by
  have := c.isLt
  rw [operandInfo, BitVec.toNat_ofNat]; omega

/-! ### Registers read back -/

/-- A register reads what was written to it; every other one as before (10_state.md R10). -/
theorem State.reg_setReg (i j : Fin 8) (v : Value) : (s.setReg i v).reg j = if j = i then v else s.reg j := by
  unfold State.setReg State.reg
  by_cases h : j = i
  · subst h; simp
  · have : i.val ≠ j.val := fun e => h (Fin.ext e.symm)
    simp [h, Vector.getElem_set_ne, this]

@[simp] theorem State.reg_memWrite (a v : Value) (j : Fin 8) : (s.memWrite a v).reg j = s.reg j := rfl
@[simp] theorem State.reg_advance (len : Nat) (j : Fin 8) : (s.advance len).reg j = s.reg j := rfl
@[simp] theorem State.reg_jump (v : Value) (j : Fin 8) : (s.jump v).reg j = s.reg j := rfl
@[simp] theorem State.reg_push (v : Value) (j : Fin 8) : (s.push v).reg j = s.reg j := rfl
@[simp] theorem State.reg_haltWith (c : Cause) (info : Info) (j : Fin 8) : (s.haltWith c info).reg j = s.reg j := rfl
@[simp] theorem State.reg_emit (v : Value) (j : Fin 8) : (s.emit v).reg j = s.reg j := rfl

end Sys2Proof.Machine
end

