-- ==== Sys2Proof/Laws/Operands.lean ====
section
/-! SUPPORT. Everything operand resolution can do: classification, the operands' check of a step, the write of a result. -/

namespace Sys2Proof.Machine

@[simp] theorem classify_lit (p : OperandPolicy) (n : Value) : classify p (.lit n) = .ok (.lit n) := rfl
@[simp] theorem classify_reg (p : OperandPolicy) (i : Fin 8) : classify p (.reg i) = .ok (.reg i) := rfl
@[simp] theorem classify_normalize (c : Cell) :
    classify .normalize (.outOfRange c) = .ok (.lit (BitVec.ofNat 15 (c.toNat % 32768))) := rfl
@[simp] theorem classify_reject (c : Cell) : classify .reject (.outOfRange c) = .error c := rfl

/-- An operand is rejected only under `reject`, only out of range, and with its own cell (30_encoding.md R58). -/
theorem classify_error {p : OperandPolicy} {o : Operand} {c : Cell} (h : classify p o = .error c) :
    p = .reject ∧ o = .outOfRange c := by
  cases o with
  | lit n => simp at h
  | reg i => simp at h
  | outOfRange d =>
    cases p with
    | normalize => simp at h
    | reject => simpa using h

/-- An operand that denotes register `i` is that register reference (40_operand_resolution.md R70). -/
theorem classify_ok_reg {p : OperandPolicy} {o : Operand} {i : Fin 8} (h : classify p o = .ok (.reg i)) :
    o = .reg i := by
  cases o with
  | lit n => simp at h
  | reg j => simpa using h
  | outOfRange d => cases p <;> simp at h

@[simp] theorem State.value_lit (s : State) (n : Value) : s.value (.lit n) = n := rfl
@[simp] theorem State.value_reg (s : State) (i : Fin 8) : s.value (.reg i) = s.reg i := rfl
@[simp] theorem State.address_eq_value (s : State) (k : Resolved) : s.address k = s.value k := rfl
@[simp] theorem target_reg (i : Fin 8) : target (.reg i) = .reg i := rfl
@[simp] theorem target_lit (n : Value) : target (.lit n) = .mem n := rfl

/-! ### The check of the operands -/

theorem State.withOperand_ok {s : State} {p : Nat} {o : Operand} {r : Resolved} (k : Resolved → State)
    (h : classify s.policy o = .ok r) : s.withOperand p o k = k r := by
  simp [State.withOperand, h]

theorem State.withOperand_error {s : State} {p : Nat} {o : Operand} {c : Cell} (k : Resolved → State)
    (h : classify s.policy o = .error c) :
    s.withOperand p o k = s.haltWith .outOfRangeOperand (operandInfo p c) := by
  simp [State.withOperand, h]

theorem State.with1_ok {s : State} {a : Operand} {ka : Resolved} (k : Resolved → State)
    (ha : classify s.policy a = .ok ka) : s.with1 a k = k ka :=
  State.withOperand_ok k ha

theorem State.with2_ok {s : State} {a b : Operand} {ka kb : Resolved} (k : Resolved → Resolved → State)
    (ha : classify s.policy a = .ok ka) (hb : classify s.policy b = .ok kb) : s.with2 a b k = k ka kb := by
  rw [State.with2, State.withOperand_ok _ ha, State.withOperand_ok _ hb]

theorem State.with3_ok {s : State} {a b c : Operand} {ka kb kc : Resolved} (k : Resolved → Resolved → Resolved → State)
    (ha : classify s.policy a = .ok ka) (hb : classify s.policy b = .ok kb) (hc : classify s.policy c = .ok kc) :
    s.with3 a b c k = k ka kb kc := by
  rw [State.with3, State.withOperand_ok _ ha, State.withOperand_ok _ hb, State.withOperand_ok _ hc]

/-- The halt of a rejected operand: its position 1, 2 or 3 and its raw cell (41_execution_loop.md R84). -/
def State.RejectedHalt (s t : State) (os : List Operand) : Prop :=
  ∃ p c, 1 ≤ p ∧ p ≤ 3 ∧ s.policy = .reject ∧ os[p - 1]? = some (.outOfRange c) ∧
    t = s.haltWith .outOfRangeOperand (operandInfo p c)

/-- A one-operand check either halts on its operand or goes on with its classification. -/
theorem State.with1_cases (s : State) (a : Operand) (k : Resolved → State) :
    s.RejectedHalt (s.with1 a k) [a] ∨ ∃ ka, classify s.policy a = .ok ka ∧ s.with1 a k = k ka := by
  cases ha : classify s.policy a with
  | ok ka => exact .inr ⟨ka, rfl, State.with1_ok k ha⟩
  | error c =>
    obtain ⟨hp, rfl⟩ := classify_error ha
    exact .inl ⟨1, c, by omega, by omega, hp, rfl, State.withOperand_error _ ha⟩

/-- A two-operand check halts on its first rejected operand or goes on with both classifications. -/
theorem State.with2_cases (s : State) (a b : Operand) (k : Resolved → Resolved → State) :
    s.RejectedHalt (s.with2 a b k) [a, b] ∨
      ∃ ka kb, classify s.policy a = .ok ka ∧ classify s.policy b = .ok kb ∧ s.with2 a b k = k ka kb := by
  cases ha : classify s.policy a with
  | error c =>
    obtain ⟨hp, rfl⟩ := classify_error ha
    exact .inl ⟨1, c, by omega, by omega, hp, rfl, State.withOperand_error _ ha⟩
  | ok ka =>
    cases hb : classify s.policy b with
    | ok kb => exact .inr ⟨ka, kb, rfl, rfl, State.with2_ok k ha hb⟩
    | error c =>
      obtain ⟨hp, rfl⟩ := classify_error hb
      refine .inl ⟨2, c, by omega, by omega, hp, rfl, ?_⟩
      rw [State.with2, State.withOperand_ok _ ha, State.withOperand_error _ hb]

/-- A three-operand check halts on its first rejected operand or goes on with all three classifications. -/
theorem State.with3_cases (s : State) (a b c : Operand) (k : Resolved → Resolved → Resolved → State) :
    s.RejectedHalt (s.with3 a b c k) [a, b, c] ∨
      ∃ ka kb kc, classify s.policy a = .ok ka ∧ classify s.policy b = .ok kb ∧ classify s.policy c = .ok kc ∧
        s.with3 a b c k = k ka kb kc := by
  cases ha : classify s.policy a with
  | error d =>
    obtain ⟨hp, rfl⟩ := classify_error ha
    exact .inl ⟨1, d, by omega, by omega, hp, rfl, State.withOperand_error _ ha⟩
  | ok ka =>
    cases hb : classify s.policy b with
    | error d =>
      obtain ⟨hp, rfl⟩ := classify_error hb
      refine .inl ⟨2, d, by omega, by omega, hp, rfl, ?_⟩
      rw [State.with3, State.withOperand_ok _ ha, State.withOperand_error _ hb]
    | ok kb =>
      cases hc : classify s.policy c with
      | ok kc => exact .inr ⟨ka, kb, kc, rfl, rfl, rfl, State.with3_ok k ha hb hc⟩
      | error d =>
        obtain ⟨hp, rfl⟩ := classify_error hc
        refine .inl ⟨3, d, by omega, by omega, hp, rfl, ?_⟩
        rw [State.with3, State.withOperand_ok _ ha, State.withOperand_ok _ hb, State.withOperand_error _ hc]

/-! ### The write of a result (40_operand_resolution.md R73) -/

theorem State.write_reg (s : State) (i : Fin 8) (v : Nat) :
    s.write (.reg i) v = s.setReg i (BitVec.ofNat 15 (v % 32768)) := rfl

theorem State.write_mem (s : State) (n : Value) (v : Nat) :
    s.write (.mem n) v = s.memWrite n (BitVec.ofNat 15 (v % 32768)) := rfl

/-- A register after a write: the target register holds the result, every other register what it held. -/
theorem State.reg_write (s : State) (t : Target) (v : Nat) (j : Fin 8) :
    (s.write t v).reg j = if t = .reg j then BitVec.ofNat 15 (v % 32768) else s.reg j := by
  cases t with
  | reg i => simp only [State.write_reg, State.reg_setReg, Target.reg.injEq, eq_comm]
  | mem n => simp [State.write_mem]

/-- A cell after a write: the target cell holds the result with bit 15 clear, every other cell what it held. -/
theorem State.read_write (s : State) (t : Target) (v : Nat) (a : Nat) :
    (s.write t v).mem.read a =
      match t with
      | .mem n => if a = n.toNat then (BitVec.ofNat 15 (v % 32768)).setWidth 16 else s.mem.read a
      | .reg _ => s.mem.read a := by
  cases t with
  | reg i => rfl
  | mem n => exact State.read_memWrite ..

theorem State.wf_write {s : State} (t : Target) (v : Nat) (h : s.mem.wf = true) : (s.write t v).mem.wf = true := by
  cases t with
  | reg i => exact h
  | mem n => exact State.wf_memWrite _ _ h

/-- A write leaves a state that differs in registers or in memory, in nothing else. -/
theorem State.write_eq (s : State) (t : Target) (v : Nat) :
    ∃ regs mem, s.write t v = { s with regs := regs, mem := mem } := by
  cases t with
  | reg i => exact ⟨_, _, rfl⟩
  | mem n => exact ⟨_, _, rfl⟩

variable (s : State) (t : Target) (v : Nat)

@[simp] theorem State.write_pc : (s.write t v).pc = s.pc := by cases t <;> rfl
@[simp] theorem State.write_stack : (s.write t v).stack = s.stack := by cases t <;> rfl
@[simp] theorem State.write_run : (s.write t v).run = s.run := by cases t <;> rfl
@[simp] theorem State.write_cause : (s.write t v).cause = s.cause := by cases t <;> rfl
@[simp] theorem State.write_info : (s.write t v).info = s.info := by cases t <;> rfl
@[simp] theorem State.write_inbuf : (s.write t v).inbuf = s.inbuf := by cases t <;> rfl
@[simp] theorem State.write_policy : (s.write t v).policy = s.policy := by cases t <;> rfl
@[simp] theorem State.write_lines : (s.write t v).lines = s.lines := by cases t <;> rfl
@[simp] theorem State.write_output : (s.write t v).output = s.output := by cases t <;> rfl

end Sys2Proof.Machine
end

