-- ==== Sys2Proof/Laws/Alu.lean ====
section
/-! SUPPORT. What the ALU's functions, the shared four-cell shape and the jump condition compute. -/

namespace Sys2Proof.Machine

/-- The four-cell shape once its operands are classified. -/
theorem State.binary_ok {s : State} {f : Value → Value → Nat} {a b c : Operand} {ka kb kc : Resolved}
    (ha : classify s.policy a = .ok ka) (hb : classify s.policy b = .ok kb) (hc : classify s.policy c = .ok kc) :
    s.binary f a b c = (s.write (target ka) (f (s.value kb) (s.value kc))).advance 4 :=
  State.with3_ok _ ha hb hc

/-- A condition holds exactly when its value is not 0 (45_jumps.md). -/
theorem conditionHolds_iff (v : Value) : conditionHolds v = true ↔ v ≠ 0 := by
  simp [conditionHolds]

/-- The masked complement of the cell is the complement of the value (46_arith_logic.md R117). -/
theorem aluNot_eq (v : Value) : aluNot v = (~~~v).toNat := by
  have e : (~~~(v.setWidth 16) &&& 0x7FFF#16) = (~~~v).setWidth 16 := by
    ext n hn
    have mask : (0x7FFF#16).getLsbD n = decide (n < 15) := by
      interval_cases n <;> rfl
    have := mask
    by_cases h : n < 15
    · simp_all
    · simp_all
  rw [aluNot, e, BitVec.toNat_setWidth]
  have := (~~~v).isLt
  omega

/-- A value stored modulo 32768 is that value (40_operand_resolution.md R73). -/
theorem ofNat_toNat_mod (v : Value) : BitVec.ofNat 15 (v.toNat % 32768) = v := by
  apply BitVec.eq_of_toNat_eq
  rw [BitVec.toNat_ofNat]
  have := v.isLt
  omega

end Sys2Proof.Machine
end

