-- ==== Sys2Proof/Laws/Decode.lean ====
section
/-! SUPPORT. Operand cells: the class read from a cell and the cell of a class are inverse. -/

namespace Sys2Proof

theorem decodeOperand_literal {c : Cell} (h : c.toNat ≤ 32767) : decodeOperand c = .lit (c.setWidth 15) := by
  simp [decodeOperand, h]

theorem decodeOperand_register {c : Cell} (h : 32767 < c.toNat) (h' : c.toNat ≤ 32775) :
    decodeOperand c = .reg ⟨(c.toNat - 32768) % 8, Nat.mod_lt _ (by decide)⟩ := by
  have : ¬ c.toNat ≤ 32767 := by omega
  simp [decodeOperand, this, h']

theorem decodeOperand_outOfRange {c : Cell} (h : 32775 < c.toNat) : decodeOperand c = .outOfRange c := by
  have h1 : ¬ c.toNat ≤ 32767 := by omega
  have h2 : ¬ c.toNat ≤ 32775 := by omega
  simp [decodeOperand, h1, h2]

/-- What is read from a cell is well formed. -/
theorem decodeOperand_wellFormed (c : Cell) : (decodeOperand c).wellFormed = true := by
  unfold decodeOperand
  split
  · rfl
  · split
    · rfl
    · simp [Operand.wellFormed]; omega

/-- A well-formed operand is read back from its cell (30_encoding.md R53). -/
theorem decodeOperand_cell {o : Operand} (h : o.wellFormed = true) : decodeOperand o.cell = o := by
  cases o with
  | lit n =>
    have hn : n.toNat < 32768 := n.isLt
    have e : (n.setWidth 16).toNat = n.toNat := by
      rw [BitVec.toNat_setWidth]; omega
    have : (Operand.lit n).cell.toNat ≤ 32767 := by
      show (n.setWidth 16).toNat ≤ 32767
      omega
    rw [decodeOperand_literal this]
    congr 1
    apply BitVec.eq_of_toNat_eq
    show ((n.setWidth 16).setWidth 15).toNat = n.toNat
    rw [BitVec.toNat_setWidth, e]; omega
  | reg i =>
    have hi : i.val < 8 := i.isLt
    have e : (Operand.reg i).cell.toNat = 32768 + i.val := by
      show (BitVec.ofNat 16 (32768 + i.val)).toNat = _
      rw [BitVec.toNat_ofNat]; omega
    rw [decodeOperand_register (by omega) (by omega)]
    refine congrArg Operand.reg (Fin.ext ?_)
    show ((Operand.reg i).cell.toNat - 32768) % 8 = i.val
    omega
  | outOfRange c =>
    simp only [Operand.wellFormed, decide_eq_true_eq] at h
    exact decodeOperand_outOfRange h

/-- Every cell is the cell of what is read from it. -/
theorem cell_decodeOperand (c : Cell) : (decodeOperand c).cell = c := by
  have hc : c.toNat < 65536 := c.isLt
  apply BitVec.eq_of_toNat_eq
  by_cases h1 : c.toNat ≤ 32767
  · rw [decodeOperand_literal h1]
    show ((c.setWidth 15).setWidth 16).toNat = _
    rw [BitVec.toNat_setWidth, BitVec.toNat_setWidth]; omega
  · by_cases h2 : c.toNat ≤ 32775
    · rw [decodeOperand_register (by omega) h2]
      show (BitVec.ofNat 16 (32768 + (c.toNat - 32768) % 8)).toNat = _
      rw [BitVec.toNat_ofNat]; omega
    · rw [decodeOperand_outOfRange (by omega)]
      rfl

/-- The three answers of a format: the operands are read, or one of their cells is missing. -/
theorem decodeF1_cases (op : Cell) (mk : Operand → Instr) (cells : List Cell) :
    (∃ a rest, cells = a :: rest ∧ decodeF1 op mk cells = .ok (mk (decodeOperand a), rest)) ∨
      (cells.length < 1 ∧ decodeF1 op mk cells = .error (.missingOperand op)) := by
  match cells with
  | [] => exact .inr ⟨by simp, rfl⟩
  | a :: rest => exact .inl ⟨a, rest, rfl, rfl⟩

theorem decodeF2_cases (op : Cell) (mk : Operand → Operand → Instr) (cells : List Cell) :
    (∃ a b rest, cells = a :: b :: rest ∧
        decodeF2 op mk cells = .ok (mk (decodeOperand a) (decodeOperand b), rest)) ∨
      (cells.length < 2 ∧ decodeF2 op mk cells = .error (.missingOperand op)) := by
  match cells with
  | [] => exact .inr ⟨by simp, rfl⟩
  | [_] => exact .inr ⟨by simp, rfl⟩
  | a :: b :: rest => exact .inl ⟨a, b, rest, rfl, rfl⟩

theorem decodeF3_cases (op : Cell) (mk : Operand → Operand → Operand → Instr) (cells : List Cell) :
    (∃ a b c rest, cells = a :: b :: c :: rest ∧
        decodeF3 op mk cells = .ok (mk (decodeOperand a) (decodeOperand b) (decodeOperand c), rest)) ∨
      (cells.length < 3 ∧ decodeF3 op mk cells = .error (.missingOperand op)) := by
  match cells with
  | [] => exact .inr ⟨by simp, rfl⟩
  | [_] => exact .inr ⟨by simp, rfl⟩
  | [_, _] => exact .inr ⟨by simp, rfl⟩
  | a :: b :: c :: rest => exact .inl ⟨a, b, c, rest, rfl, rfl⟩

/-- An operand count is at most 3. -/
theorem operandCount_le {op : Cell} {n : Nat} (h : operandCount op = some n) : n ≤ 3 := by
  unfold operandCount at h
  split at h <;> simp at h <;> omega

/-! ### Everything decoding an opcode cell and the cells after it can answer -/

/-- Format F0 read at its opcode: `i` is that opcode's instruction. -/
theorem decodeF0_shape {i : Instr} {op : Cell} (rest : List Cell) (ho : i.opcode = op) (hs : i.operands = []) :
    ∃ j, decodeF0 i rest = .ok (j, rest.drop 0) ∧ j.opcode = op ∧ j.operands = (rest.take 0).map decodeOperand :=
  ⟨i, rfl, ho, by simpa using hs⟩

theorem decodeF1_shape {mk : Operand → Instr} {op : Cell} (rest : List Cell) (ho : ∀ a, (mk a).opcode = op)
    (hs : ∀ a, (mk a).operands = [a]) :
    (rest.length < 1 ∧ decodeF1 op mk rest = .error (.missingOperand op)) ∨
      1 ≤ rest.length ∧ ∃ j, decodeF1 op mk rest = .ok (j, rest.drop 1) ∧ j.opcode = op ∧
        j.operands = (rest.take 1).map decodeOperand := by
  rcases decodeF1_cases op mk rest with ⟨a, tl, rfl, h⟩ | h
  · exact .inr ⟨by simp, _, h, ho _, by simp [hs]⟩
  · exact .inl h

theorem decodeF2_shape {mk : Operand → Operand → Instr} {op : Cell} (rest : List Cell)
    (ho : ∀ a b, (mk a b).opcode = op) (hs : ∀ a b, (mk a b).operands = [a, b]) :
    (rest.length < 2 ∧ decodeF2 op mk rest = .error (.missingOperand op)) ∨
      2 ≤ rest.length ∧ ∃ j, decodeF2 op mk rest = .ok (j, rest.drop 2) ∧ j.opcode = op ∧
        j.operands = (rest.take 2).map decodeOperand := by
  rcases decodeF2_cases op mk rest with ⟨a, b, tl, rfl, h⟩ | h
  · exact .inr ⟨by simp, _, h, ho _ _, by simp [hs]⟩
  · exact .inl h

theorem decodeF3_shape {mk : Operand → Operand → Operand → Instr} {op : Cell} (rest : List Cell)
    (ho : ∀ a b c, (mk a b c).opcode = op) (hs : ∀ a b c, (mk a b c).operands = [a, b, c]) :
    (rest.length < 3 ∧ decodeF3 op mk rest = .error (.missingOperand op)) ∨
      3 ≤ rest.length ∧ ∃ j, decodeF3 op mk rest = .ok (j, rest.drop 3) ∧ j.opcode = op ∧
        j.operands = (rest.take 3).map decodeOperand := by
  rcases decodeF3_cases op mk rest with ⟨a, b, c, tl, rfl, h⟩ | h
  · exact .inr ⟨by simp, _, h, ho _ _ _, by simp [hs]⟩
  · exact .inl h

/-- The three answers of decoding: the opcode cell is illegal, an operand cell is missing, or the instruction of that
opcode with the operands of the next cells (30_encoding.md R50, R55, R57). -/
theorem decode_cons_cases (op : Cell) (rest : List Cell) :
    (21 < op.toNat ∧ operandCount op = none ∧ decode (op :: rest) = .error (.illegalOpcode op)) ∨
      ∃ n, operandCount op = some n ∧
        ((rest.length < n ∧ decode (op :: rest) = .error (.missingOperand op)) ∨
          n ≤ rest.length ∧ ∃ i, decode (op :: rest) = .ok (i, rest.drop n) ∧ i.opcode = op ∧
            i.operands = (rest.take n).map decodeOperand) := by
  by_cases hbig : 21 < op.toNat
  · left
    refine ⟨hbig, ?_, ?_⟩
    · unfold operandCount; split <;> first | omega | rfl
    · simp only [decode]; split <;> first | omega | rfl
  · right
    obtain ⟨k, hk, rfl⟩ : ∃ k, k ≤ 21 ∧ op = BitVec.ofNat 16 k :=
      ⟨op.toNat, by omega, BitVec.eq_of_toNat_eq (by simp)⟩
    interval_cases k
    all_goals first
      | exact ⟨0, rfl, .inr ⟨Nat.zero_le _, decodeF0_shape rest rfl rfl⟩⟩
      | exact ⟨1, rfl, decodeF1_shape rest (fun _ => rfl) (fun _ => rfl)⟩
      | exact ⟨2, rfl, decodeF2_shape rest (fun _ _ => rfl) (fun _ _ => rfl)⟩
      | exact ⟨3, rfl, decodeF3_shape rest (fun _ _ _ => rfl) (fun _ _ _ => rfl)⟩

/-- An instruction read from cells has the length of its operand count, well-formed operands, and was there whole. -/
theorem decode_ok {cells rest : List Cell} {i : Instr} (h : decode cells = .ok (i, rest)) :
    i.wellFormed = true ∧ i.length ≤ cells.length ∧ rest = cells.drop i.length := by
  cases cells with
  | nil => simp [decode] at h
  | cons op tl =>
    rcases decode_cons_cases op tl with ⟨_, _, h'⟩ | ⟨n, _, ⟨_, h'⟩ | ⟨hn, j, h', _, hops⟩⟩
    · simp [h'] at h
    · simp [h'] at h
    · rw [h', Except.ok.injEq, Prod.mk.injEq] at h
      obtain ⟨rfl, rfl⟩ := h
      have hl : j.operands.length = n := by simp [hops, hn]
      refine ⟨?_, ?_, ?_⟩
      · simp only [Instr.wellFormed, hops, List.all_eq_true, List.mem_map]
        rintro o ⟨c, _, rfl⟩
        exact decodeOperand_wellFormed c
      · simp only [Instr.length, hl, List.length_cons]; omega
      · rw [Instr.length, hl, Nat.add_comm, List.drop_succ_cons]

end Sys2Proof
end

