-- ==== Sys2Proof/Laws/StackConsole.lean ====
section
/-! SUPPORT. Everything `pop` from the stack and the next console code can answer. -/

namespace Sys2Proof.Machine

/-- An empty stack gives nothing. -/
theorem State.pop?_none {s : State} (h : s.stack = []) : s.pop? = none := by
  simp [State.pop?, h]

/-- A stack with `v` on top gives `v` and the stack below it (10_state.md R13). -/
theorem State.pop?_some {s : State} {st : List Value} {v : Value} (h : s.stack = st ++ [v]) :
    s.pop? = some (v, { s with stack := st }) := by
  simp [State.pop?, h]

/-- The two answers of `pop?`. -/
theorem State.pop?_cases (s : State) :
    (s.stack = [] ∧ s.pop? = none) ∨
      ∃ st v, s.stack = st ++ [v] ∧ s.pop? = some (v, { s with stack := st }) := by
  rcases List.eq_nil_or_concat s.stack with h | ⟨st, v, h⟩
  · exact .inl ⟨h, State.pop?_none h⟩
  · exact .inr ⟨st, v, by simpa using h, State.pop?_some (by simpa using h)⟩

/-- The Console has no line exactly when every line listed has no codes. -/
theorem consoleReadLine_none {lines : List Line} : consoleReadLine lines = none ↔ lines.all List.isEmpty = true := by
  induction lines with
  | nil => simp [consoleReadLine]
  | cons l lines ih =>
    cases l with
    | nil => simpa [consoleReadLine] using ih
    | cons ch l => simp [consoleReadLine]

/-- The line read is the first that has a code; the lines with none before it are passed over. -/
theorem consoleReadLine_some {lines : List Line} {ch : Code} {rest : Line} {left : List Line}
    (h : consoleReadLine lines = some (ch, rest, left)) :
    ∃ empty : List Line, empty.all List.isEmpty = true ∧ lines = empty ++ (ch :: rest) :: left := by
  induction lines with
  | nil => simp [consoleReadLine] at h
  | cons l lines ih =>
    cases l with
    | nil =>
      obtain ⟨e, he, rfl⟩ := ih (by simpa [consoleReadLine] using h)
      exact ⟨[] :: e, by simpa using he, rfl⟩
    | cons c l =>
      simp only [consoleReadLine, Option.some.injEq, Prod.mk.injEq] at h
      obtain ⟨rfl, rfl, rfl⟩ := h
      exact ⟨[], rfl, rfl⟩

/-- Lines with no codes before a line with one do not change what is read. -/
theorem consoleReadLine_skip {empty : List Line} (he : empty.all List.isEmpty = true) (ch : Code) (rest : Line)
    (left : List Line) : consoleReadLine (empty ++ (ch :: rest) :: left) = some (ch, rest, left) := by
  induction empty with
  | nil => rfl
  | cons l e ih =>
    simp only [List.all_cons, Bool.and_eq_true, List.isEmpty_iff] at he
    obtain ⟨rfl, he⟩ := he
    exact ih he

/-- The three answers of the next code: from the buffer, from a line because the buffer is empty, or none. -/
theorem State.nextCode?_cases (s : State) :
    (∃ ch rest, s.inbuf = ch :: rest ∧ s.nextCode? = some (ch, { s with inbuf := rest })) ∨
      (∃ ch rest left, s.inbuf = [] ∧ consoleReadLine s.lines = some (ch, rest, left) ∧
        s.nextCode? = some (ch, { s with inbuf := rest, lines := left })) ∨
      (s.inbuf = [] ∧ s.lines.all List.isEmpty = true ∧ s.nextCode? = none) := by
  unfold State.nextCode?
  cases hb : s.inbuf with
  | cons ch rest => exact .inl ⟨ch, rest, rfl, rfl⟩
  | nil =>
    cases hl : consoleReadLine s.lines with
    | some r =>
      obtain ⟨ch, rest, left⟩ := r
      exact .inr (.inl ⟨ch, rest, left, rfl, rfl, rfl⟩)
    | none => exact .inr (.inr ⟨rfl, consoleReadLine_none.mp hl, rfl⟩)

end Sys2Proof.Machine
end

