-- ==== Sys2Proof/Laws/Exec.lean ====
section
/-! SUPPORT. Said once: everything an instruction can do to a state. Claims over all instructions go by cases on it. -/

namespace Sys2Proof.Machine

/-- `Effect s i t`: executing `i` at `s` may leave `t`. -/
inductive Effect (s : State) : Instr → State → Prop
  | rejected {i t} (h : s.RejectedHalt t i.operands) : Effect s i t
  | halt : Effect s .halt ((s.advance 1).haltWith .haltInstr 0)
  | setNoRegister {a b n kb} (ha : classify s.policy a = .ok (.lit n)) (hb : classify s.policy b = .ok kb) :
      Effect s (.set a b) (s.haltWith .invalidWriteTarget (cellInfo a.cell))
  | popEmpty {a k} (ha : classify s.policy a = .ok k) (h : s.stack = []) :
      Effect s (.pop a) (s.haltWith .stackUnderflow 0)
  | modZero {a b c ka kb kc} (ha : classify s.policy a = .ok ka) (hb : classify s.policy b = .ok kb)
      (hc : classify s.policy c = .ok kc) (h : s.value kc = 0) :
      Effect s (.mod a b c) (s.haltWith .divisionByZero 0)
  | retEmpty (h : s.stack = []) : Effect s .ret (s.haltWith .retEmpty 0)
  | result {i a k v} (hi : targetOperand i = some a) (ha : classify s.policy a = .ok k)
      (hs : ∀ x y, i = .set x y → ∃ r, k = .reg r) (hp : ∀ x, i ≠ .pop x) (hn : ∀ x, i ≠ .inp x) :
      Effect s i ((s.write (target k) v).advance i.length)
  | popped {a k st v} (ha : classify s.policy a = .ok k) (h : s.stack = st ++ [v]) :
      Effect s (.pop a) ((({ s with stack := st } : State).write (target k) v.toNat).advance 2)
  | received {a k ch rest left} (ha : classify s.policy a = .ok k)
      (h : (s.inbuf = ch :: rest ∧ left = s.lines) ∨
        (s.inbuf = [] ∧ consoleReadLine s.lines = some (ch, rest, left))) :
      Effect s (.inp a) ((({ s with inbuf := rest, lines := left } : State).write (target k) ch).advance 2)
  | waits {a k} (ha : classify s.policy a = .ok k) (h : s.inbuf = []) (hl : s.lines.all List.isEmpty = true) :
      Effect s (.inp a) s
  | stored {a b ka kb} (ha : classify s.policy a = .ok ka) (hb : classify s.policy b = .ok kb) :
      Effect s (.wmem a b) ((s.memWrite (s.value ka) (s.value kb)).advance 3)
  | noop : Effect s .noop (s.advance 1)
  | fellThrough {i} (hi : (∃ a b, i = .jt a b) ∨ ∃ a b, i = .jf a b) : Effect s i (s.advance 3)
  | jumped {i v} (hi : (∃ a, i = .jmp a) ∨ (∃ a b, i = .jt a b) ∨ ∃ a b, i = .jf a b) : Effect s i (s.jump v)
  | pushed {a k} (ha : classify s.policy a = .ok k) : Effect s (.push a) ((s.push (s.value k)).advance 2)
  | called {a k} (ha : classify s.policy a = .ok k) :
      Effect s (.call a) ((s.push s.returnAddress).jump (s.value k))
  | returned {st v} (h : s.stack = st ++ [v]) : Effect s .ret (({ s with stack := st } : State).jump v)
  | emitted {a k} (ha : classify s.policy a = .ok k) : Effect s (.out a) ((s.emit (s.value k)).advance 2)

/-- The shared shape of the four-cell result instructions. -/
theorem binary_effect {s : State} {i : Instr} (f : Value → Value → Nat) (a b c : Operand)
    (hi : targetOperand i = some a) (hops : i.operands = [a, b, c]) (hs : ∀ x y, i ≠ .set x y) (hp : ∀ x, i ≠ .pop x)
    (hn : ∀ x, i ≠ .inp x) : Effect s i (s.binary f a b c) := by
  have hl : i.length = 4 := by simp [Instr.length, hops]
  rcases s.with3_cases a b c fun ka kb kc => (s.write (target ka) (f (s.value kb) (s.value kc))).advance 4 with
    h | ⟨ka, kb, kc, ha, _, _, h⟩
  · exact .rejected (hops ▸ h)
  · rw [State.binary, h, ← hl]
    exact .result hi ha (fun x y e => absurd e (hs x y)) hp hn

/-- What `exec` answers: always a next state, and one that the instruction's effect allows. -/
theorem exec_effect (i : Instr) (s : State) : ∃ t, exec i s = .next t ∧ Effect s i t := by
  cases i with
  | halt => exact ⟨_, rfl, .halt⟩
  | set a b =>
    refine ⟨_, rfl, ?_⟩
    rcases s.with2_cases a b _ with h | ⟨ka, kb, ha, hb, h⟩
    · exact .rejected h
    · rw [h]
      cases ka with
      | lit n => exact .setNoRegister ha hb
      | reg r => exact .result (i := .set a b) rfl ha (fun _ _ _ => ⟨r, rfl⟩) (by simp) (by simp)
  | push a =>
    refine ⟨_, rfl, ?_⟩
    rcases s.with1_cases a _ with h | ⟨ka, ha, h⟩
    · exact .rejected h
    · rw [h]; exact .pushed ha
  | pop a =>
    refine ⟨_, rfl, ?_⟩
    rcases s.with1_cases a _ with h | ⟨ka, ha, h⟩
    · exact .rejected h
    · rw [h]
      rcases s.pop?_cases with ⟨hs, hp⟩ | ⟨st, v, hs, hp⟩
      · rw [hp]; exact .popEmpty ha hs
      · rw [hp]; exact .popped ha hs
  | eq a b c => exact ⟨_, rfl, binary_effect aluEq a b c rfl rfl (by simp) (by simp) (by simp)⟩
  | gt a b c => exact ⟨_, rfl, binary_effect aluGt a b c rfl rfl (by simp) (by simp) (by simp)⟩
  | jmp a =>
    refine ⟨_, rfl, ?_⟩
    rcases s.with1_cases a _ with h | ⟨ka, ha, h⟩
    · exact .rejected h
    · rw [h]; exact .jumped (.inl ⟨a, rfl⟩)
  | jt a b =>
    refine ⟨_, rfl, ?_⟩
    rcases s.with2_cases a b _ with h | ⟨ka, kb, ha, hb, h⟩
    · exact .rejected h
    · rw [h]
      split
      · exact .jumped (.inr (.inl ⟨a, b, rfl⟩))
      · exact .fellThrough (.inl ⟨a, b, rfl⟩)
  | jf a b =>
    refine ⟨_, rfl, ?_⟩
    rcases s.with2_cases a b _ with h | ⟨ka, kb, ha, hb, h⟩
    · exact .rejected h
    · rw [h]
      split
      · exact .fellThrough (.inr ⟨a, b, rfl⟩)
      · exact .jumped (.inr (.inr ⟨a, b, rfl⟩))
  | add a b c => exact ⟨_, rfl, binary_effect aluAdd a b c rfl rfl (by simp) (by simp) (by simp)⟩
  | mult a b c => exact ⟨_, rfl, binary_effect aluMult a b c rfl rfl (by simp) (by simp) (by simp)⟩
  | mod a b c =>
    refine ⟨_, rfl, ?_⟩
    rcases s.with3_cases a b c _ with h | ⟨ka, kb, kc, ha, hb, hc, h⟩
    · exact .rejected h
    · rw [h]
      split
      · next h0 => exact .modZero ha hb hc h0
      · exact .result (i := .mod a b c) rfl ha (by simp) (by simp) (by simp)
  | and a b c => exact ⟨_, rfl, binary_effect aluAnd a b c rfl rfl (by simp) (by simp) (by simp)⟩
  | or a b c => exact ⟨_, rfl, binary_effect aluOr a b c rfl rfl (by simp) (by simp) (by simp)⟩
  | not a b =>
    refine ⟨_, rfl, ?_⟩
    rcases s.with2_cases a b _ with h | ⟨ka, kb, ha, hb, h⟩
    · exact .rejected h
    · rw [h]; exact .result (i := .not a b) rfl ha (by simp) (by simp) (by simp)
  | rmem a b =>
    refine ⟨_, rfl, ?_⟩
    rcases s.with2_cases a b _ with h | ⟨ka, kb, ha, hb, h⟩
    · exact .rejected h
    · rw [h]; exact .result (i := .rmem a b) rfl ha (by simp) (by simp) (by simp)
  | wmem a b =>
    refine ⟨_, rfl, ?_⟩
    rcases s.with2_cases a b _ with h | ⟨ka, kb, ha, hb, h⟩
    · exact .rejected h
    · rw [h]; exact .stored ha hb
  | call a =>
    refine ⟨_, rfl, ?_⟩
    rcases s.with1_cases a _ with h | ⟨ka, ha, h⟩
    · exact .rejected h
    · rw [h]; exact .called ha
  | ret =>
    refine ⟨_, rfl, ?_⟩
    rcases s.pop?_cases with ⟨hs, hp⟩ | ⟨st, v, hs, hp⟩
    · rw [hp]; exact .retEmpty hs
    · rw [hp]; exact .returned hs
  | out a =>
    refine ⟨_, rfl, ?_⟩
    rcases s.with1_cases a _ with h | ⟨ka, ha, h⟩
    · exact .rejected h
    · rw [h]; exact .emitted ha
  | inp a =>
    refine ⟨_, rfl, ?_⟩
    rcases s.with1_cases a _ with h | ⟨ka, ha, h⟩
    · exact .rejected h
    · rw [h]
      rcases s.nextCode?_cases with ⟨ch, rest, hb, hn⟩ | ⟨ch, rest, left, hb, hl, hn⟩ | ⟨hb, hl, hn⟩
      · rw [hn]; exact .received (left := s.lines) ha (.inl ⟨hb, rfl⟩)
      · rw [hn]; exact .received ha (.inr ⟨hb, hl⟩)
      · rw [hn]; exact .waits ha hb hl
  | noop => exact ⟨_, rfl, .noop⟩

/-- The inversion of `exec`: a next state it answered is one the instruction's effect allows. -/
theorem exec_inv {i : Instr} {s t : State} (h : exec i s = .next t) : Effect s i t := by
  obtain ⟨u, hu, he⟩ := exec_effect i s
  rw [hu, Host.Outcome.next.injEq] at h
  exact h ▸ he

end Sys2Proof.Machine
end

