-- ==== Sys2Proof/Laws/Fetch.lean ====
section
/-! SUPPORT. Everything the fetch of an instruction can answer (41_execution_loop.md R81 to R83). -/

namespace Sys2Proof.Machine

theorem State.cellsFrom_beyond (s : State) {a : Nat} (h : 32767 < a) (k : Nat) : s.cellsFrom a k = [] := by
  cases k with
  | zero => rfl
  | succ k =>
    have : ¬ a ≤ 32767 := by omega
    simp [State.cellsFrom, this]

theorem State.cellsFrom_succ (s : State) {a : Nat} (h : a ≤ 32767) (k : Nat) :
    s.cellsFrom a (k + 1) = s.mem.read a :: s.cellsFrom (a + 1) k := by
  simp [State.cellsFrom, h]

/-- As many cells as asked for, as far as memory goes. -/
theorem State.length_cellsFrom (s : State) (a k : Nat) : (s.cellsFrom a k).length = min k (32768 - a) := by
  induction k generalizing a with
  | zero => simp [State.cellsFrom]
  | succ k ih =>
    unfold State.cellsFrom
    split
    · rw [List.length_cons, ih]; omega
    · simp only [List.length_nil]; omega

/-- Cell `j` of the fetch is the memory cell `j` after the first. -/
theorem State.getElem?_cellsFrom (s : State) (a k j : Nat) (hj : j < k) (ha : a + j ≤ 32767) :
    (s.cellsFrom a k)[j]? = some (s.mem.read (a + j)) := by
  induction k generalizing a j with
  | zero => omega
  | succ k ih =>
    rw [State.cellsFrom_succ s (by omega)]
    cases j with
    | zero => simp
    | succ j =>
      rw [List.getElem?_cons_succ, ih (a + 1) j (by omega) (by omega)]
      congr 2; omega

/-- What is fetched depends on memory alone. -/
theorem State.cellsFrom_congr {s t : State} (h : t.mem = s.mem) (a k : Nat) : t.cellsFrom a k = s.cellsFrom a k := by
  induction k generalizing a with
  | zero => rfl
  | succ k ih => simp [State.cellsFrom, h, ih]

/-- A fetched instruction is well formed and lies inside memory with all its cells. -/
theorem State.fetch_ok {s : State} {i : Instr} {rest : List Cell} (h : s.fetch = .ok (i, rest)) :
    i.wellFormed = true ∧ s.pc.toNat + i.length ≤ 32768 := by
  have hd := decode_ok h
  rw [State.length_cellsFrom] at hd
  have : 1 ≤ i.length := by simp [Instr.length]
  exact ⟨hd.1, by omega⟩

/-- The answers of a fetch: the pc is off memory (S1); the opcode is illegal (S2); an operand cell is off memory (S3);
or an instruction. -/
theorem State.fetch_cases (s : State) :
    (32767 < s.pc.toNat ∧ s.fetch = .error .noCell) ∨
      (s.pc.toNat ≤ 32767 ∧ 21 < (s.mem.read s.pc.toNat).toNat ∧
        s.fetch = .error (.illegalOpcode (s.mem.read s.pc.toNat))) ∨
      (∃ n, s.pc.toNat ≤ 32767 ∧ operandCount (s.mem.read s.pc.toNat) = some n ∧ 32767 < s.pc.toNat + n ∧
        s.fetch = .error (.missingOperand (s.mem.read s.pc.toNat))) ∨
      ∃ n i rest, operandCount (s.mem.read s.pc.toNat) = some n ∧ s.pc.toNat + n ≤ 32767 ∧
        i.operands.length = n ∧ i.opcode = s.mem.read s.pc.toNat ∧ s.fetch = .ok (i, rest) := by
  by_cases hpc : 32767 < s.pc.toNat
  · left
    refine ⟨hpc, ?_⟩
    rw [State.fetch, State.cellsFrom_beyond s hpc]
    rfl
  · right
    have hpc' : s.pc.toNat ≤ 32767 := by omega
    have hlen := State.length_cellsFrom s (s.pc.toNat + 1) 3
    rw [State.fetch, State.cellsFrom_succ s hpc']
    rcases decode_cons_cases (s.mem.read s.pc.toNat) (s.cellsFrom (s.pc.toNat + 1) 3) with
      ⟨h, _, e⟩ | ⟨n, hn, ⟨hl, e⟩ | ⟨hl, i, e, ho, hops⟩⟩
    · exact .inl ⟨hpc', h, e⟩
    · refine .inr (.inl ⟨n, hpc', hn, ?_, e⟩)
      have := operandCount_le hn
      omega
    · refine .inr (.inr ⟨n, i, _, hn, by omega, ?_, ho, e⟩)
      simp [hops, hl]

end Sys2Proof.Machine
end

