-- ==== Sys2Proof/Laws/PerInstr.lean ====
section
/-! SUPPORT. For every instruction: its opcode cell is one of the map's, and its length is one more than that opcode's
operand count, 1 to 4 cells (30_encoding.md R50, R51, R55). -/

/-- An instruction's cells are its opcode and as many operands as the opcode map gives that opcode. -/
def Sys2Proof.Laws.Shape.Statement (i : Sys2Proof.Instr) : Prop :=
  Sys2Proof.operandCount i.opcode = some i.operands.length ∧
    (Sys2Proof.encode i).length = i.length ∧ i.length ≤ 4 ∧ i.opcode.toNat ≤ 21

theorem Sys2Proof.Laws.Shape.halt : Sys2Proof.Laws.Shape.Statement .halt :=
  ⟨rfl, rfl, Nat.le_of_ble_eq_true rfl, Nat.le_of_ble_eq_true rfl⟩

theorem Sys2Proof.Laws.Shape.set (a b : Sys2Proof.Operand) : Sys2Proof.Laws.Shape.Statement (.set a b) :=
  ⟨rfl, rfl, Nat.le_of_ble_eq_true rfl, Nat.le_of_ble_eq_true rfl⟩

theorem Sys2Proof.Laws.Shape.push (a : Sys2Proof.Operand) : Sys2Proof.Laws.Shape.Statement (.push a) :=
  ⟨rfl, rfl, Nat.le_of_ble_eq_true rfl, Nat.le_of_ble_eq_true rfl⟩

theorem Sys2Proof.Laws.Shape.pop (a : Sys2Proof.Operand) : Sys2Proof.Laws.Shape.Statement (.pop a) :=
  ⟨rfl, rfl, Nat.le_of_ble_eq_true rfl, Nat.le_of_ble_eq_true rfl⟩

theorem Sys2Proof.Laws.Shape.eq (a b c : Sys2Proof.Operand) : Sys2Proof.Laws.Shape.Statement (.eq a b c) :=
  ⟨rfl, rfl, Nat.le_of_ble_eq_true rfl, Nat.le_of_ble_eq_true rfl⟩

theorem Sys2Proof.Laws.Shape.gt (a b c : Sys2Proof.Operand) : Sys2Proof.Laws.Shape.Statement (.gt a b c) :=
  ⟨rfl, rfl, Nat.le_of_ble_eq_true rfl, Nat.le_of_ble_eq_true rfl⟩

theorem Sys2Proof.Laws.Shape.jmp (a : Sys2Proof.Operand) : Sys2Proof.Laws.Shape.Statement (.jmp a) :=
  ⟨rfl, rfl, Nat.le_of_ble_eq_true rfl, Nat.le_of_ble_eq_true rfl⟩

theorem Sys2Proof.Laws.Shape.jt (a b : Sys2Proof.Operand) : Sys2Proof.Laws.Shape.Statement (.jt a b) :=
  ⟨rfl, rfl, Nat.le_of_ble_eq_true rfl, Nat.le_of_ble_eq_true rfl⟩

theorem Sys2Proof.Laws.Shape.jf (a b : Sys2Proof.Operand) : Sys2Proof.Laws.Shape.Statement (.jf a b) :=
  ⟨rfl, rfl, Nat.le_of_ble_eq_true rfl, Nat.le_of_ble_eq_true rfl⟩

theorem Sys2Proof.Laws.Shape.add (a b c : Sys2Proof.Operand) : Sys2Proof.Laws.Shape.Statement (.add a b c) :=
  ⟨rfl, rfl, Nat.le_of_ble_eq_true rfl, Nat.le_of_ble_eq_true rfl⟩

theorem Sys2Proof.Laws.Shape.mult (a b c : Sys2Proof.Operand) : Sys2Proof.Laws.Shape.Statement (.mult a b c) :=
  ⟨rfl, rfl, Nat.le_of_ble_eq_true rfl, Nat.le_of_ble_eq_true rfl⟩

theorem Sys2Proof.Laws.Shape.mod (a b c : Sys2Proof.Operand) : Sys2Proof.Laws.Shape.Statement (.mod a b c) :=
  ⟨rfl, rfl, Nat.le_of_ble_eq_true rfl, Nat.le_of_ble_eq_true rfl⟩

theorem Sys2Proof.Laws.Shape.and (a b c : Sys2Proof.Operand) : Sys2Proof.Laws.Shape.Statement (.and a b c) :=
  ⟨rfl, rfl, Nat.le_of_ble_eq_true rfl, Nat.le_of_ble_eq_true rfl⟩

theorem Sys2Proof.Laws.Shape.or (a b c : Sys2Proof.Operand) : Sys2Proof.Laws.Shape.Statement (.or a b c) :=
  ⟨rfl, rfl, Nat.le_of_ble_eq_true rfl, Nat.le_of_ble_eq_true rfl⟩

theorem Sys2Proof.Laws.Shape.not (a b : Sys2Proof.Operand) : Sys2Proof.Laws.Shape.Statement (.not a b) :=
  ⟨rfl, rfl, Nat.le_of_ble_eq_true rfl, Nat.le_of_ble_eq_true rfl⟩

theorem Sys2Proof.Laws.Shape.rmem (a b : Sys2Proof.Operand) : Sys2Proof.Laws.Shape.Statement (.rmem a b) :=
  ⟨rfl, rfl, Nat.le_of_ble_eq_true rfl, Nat.le_of_ble_eq_true rfl⟩

theorem Sys2Proof.Laws.Shape.wmem (a b : Sys2Proof.Operand) : Sys2Proof.Laws.Shape.Statement (.wmem a b) :=
  ⟨rfl, rfl, Nat.le_of_ble_eq_true rfl, Nat.le_of_ble_eq_true rfl⟩

theorem Sys2Proof.Laws.Shape.call (a : Sys2Proof.Operand) : Sys2Proof.Laws.Shape.Statement (.call a) :=
  ⟨rfl, rfl, Nat.le_of_ble_eq_true rfl, Nat.le_of_ble_eq_true rfl⟩

theorem Sys2Proof.Laws.Shape.ret : Sys2Proof.Laws.Shape.Statement .ret :=
  ⟨rfl, rfl, Nat.le_of_ble_eq_true rfl, Nat.le_of_ble_eq_true rfl⟩

theorem Sys2Proof.Laws.Shape.out (a : Sys2Proof.Operand) : Sys2Proof.Laws.Shape.Statement (.out a) :=
  ⟨rfl, rfl, Nat.le_of_ble_eq_true rfl, Nat.le_of_ble_eq_true rfl⟩

theorem Sys2Proof.Laws.Shape.inp (a : Sys2Proof.Operand) : Sys2Proof.Laws.Shape.Statement (.inp a) :=
  ⟨rfl, rfl, Nat.le_of_ble_eq_true rfl, Nat.le_of_ble_eq_true rfl⟩

theorem Sys2Proof.Laws.Shape.noop : Sys2Proof.Laws.Shape.Statement .noop :=
  ⟨rfl, rfl, Nat.le_of_ble_eq_true rfl, Nat.le_of_ble_eq_true rfl⟩
end

