-- ==== Sys2Proof/Laws/Step.lean ====
section
/-! SUPPORT. Said once: everything a step can do (41_execution_loop.md R80, R90). -/

namespace Sys2Proof.Machine

/-- A step of a halted machine. -/
theorem step_halted {s : State} (h : s.run = .halted) : step s = .next s := by
  simp [step, h]

/-- A step of a running machine whose fetch gives an instruction. -/
theorem step_fetched {s : State} {i : Instr} {rest : List Cell} (h : s.run = .running)
    (hf : s.fetch = .ok (i, rest)) : step s = exec i s := by
  simp [step, h, hf]

/-- A step of a running machine whose fetch gives none. -/
theorem step_unfetched {s : State} {e : DecodeError} (h : s.run = .running) (hf : s.fetch = .error e) :
    step s = .next (s.fetchHalt e) := by
  simp [step, h, hf]

/-- The three ways a step goes. -/
theorem step_cases (s : State) :
    (s.run = .halted ∧ step s = .next s) ∨
      (s.run = .running ∧ ∃ e, s.fetch = .error e ∧ step s = .next (s.fetchHalt e)) ∨
      (s.run = .running ∧ ∃ i rest t, s.fetch = .ok (i, rest) ∧ step s = .next t ∧ exec i s = .next t ∧
        Effect s i t) := by
  cases hr : s.run with
  | halted => exact .inl ⟨rfl, step_halted hr⟩
  | running =>
    cases hf : s.fetch with
    | error e => exact .inr (.inl ⟨rfl, e, rfl, step_unfetched hr hf⟩)
    | ok p =>
      obtain ⟨i, rest⟩ := p
      obtain ⟨t, ht, he⟩ := exec_effect i s
      exact .inr (.inr ⟨rfl, i, rest, t, rfl, (step_fetched hr hf).trans ht, ht, he⟩)

/-- The inversion of `step`. -/
theorem step_inv {s t : State} (h : step s = .next t) :
    (s.run = .halted ∧ t = s) ∨ (s.run = .running ∧ ∃ e, s.fetch = .error e ∧ t = s.fetchHalt e) ∨
      (s.run = .running ∧ ∃ i rest, s.fetch = .ok (i, rest) ∧ exec i s = .next t ∧ Effect s i t) := by
  rcases step_cases s with ⟨hr, hs⟩ | ⟨hr, e, hf, hs⟩ | ⟨hr, i, rest, u, hf, hs, hx, he⟩
  · rw [hs, Host.Outcome.next.injEq] at h
    exact .inl ⟨hr, h.symm⟩
  · rw [hs, Host.Outcome.next.injEq] at h
    exact .inr (.inl ⟨hr, e, hf, h.symm⟩)
  · rw [hs, Host.Outcome.next.injEq] at h
    subst h
    exact .inr (.inr ⟨hr, i, rest, hf, hx, he⟩)

/-- The halt of a fetch is one of three, the pc and everything but the status word as before. -/
theorem fetchHalt_eq (s : State) (e : DecodeError) :
    ∃ c info, s.fetchHalt e = s.haltWith c info := by
  cases e <;> exact ⟨_, _, rfl⟩

end Sys2Proof.Machine
end

