-- ==== Sys2Proof/Tests/Slice0.lean ====
section
/-! SUPPORT. Tests: expected results from spec/95_test_vectors.md (V.., P..) or worked by hand from the rule named; then
a witness for the hypotheses of every statement that has some. -/

namespace Sys2Proof.Tests

open Sys2Proof.Machine

/-- Reset with an image (95_test_vectors.md, conventions). -/
def load (cells : List Cell) : State := { State.reset with mem := Memory.ofImage 0 cells }

/-- Cells placed from an address on, the pc at it, all other cells zero. -/
def loadAt (a : Nat) (cells : List Cell) : State :=
  { State.reset with mem := Memory.ofImage a cells, pc := BitVec.ofNat 16 a }

/-- The same machine with a register set beforehand. -/
def withReg (s : State) (i : Fin 8) (v : Value) : State := s.setReg i v

/-- What a step's next state shows, none if it has none. -/
def see {α : Type} (o : Host.Outcome State Fault Refusal) (f : State → α) : Option α :=
  match o with
  | .next s => some (f s)
  | .fault _ => none
  | .refused _ => none

/-- The status word of the next state, and its pc. -/
def status (o : Host.Outcome State Fault Refusal) : Option (RunState × Cause × Info × Pc) :=
  see o fun s => (s.run, s.cause, s.info, s.pc)

/-! ### WellFormed refuses an ill-formed operand in every position -/

theorem test_wf_refuses_a : (Instr.push (.outOfRange 32775)).wellFormed = false := by decide
theorem test_wf_refuses_b : (Instr.set (.reg 0) (.outOfRange 5)).wellFormed = false := by decide
theorem test_wf_refuses_c : (Instr.add (.reg 0) (.lit 1) (.outOfRange 32768)).wellFormed = false := by decide
theorem test_wf_accepts : (Instr.add (.reg 7) (.lit 1) (.outOfRange 32776)).wellFormed = true := by decide

/-! ### Decoding: the word of every row, written out from 30_encoding.md R55 -/

theorem test_decode_halt : decode [0x0000] = .ok (.halt, []) := by decide
theorem test_decode_set : decode [0x0001, 0x8001, 0x04D2] = .ok (.set (.reg 1) (.lit 1234), []) := by decide
theorem test_decode_push : decode [0x0002, 0x7FFF] = .ok (.push (.lit 32767), []) := by decide
theorem test_decode_pop : decode [0x0003, 0x8000] = .ok (.pop (.reg 0), []) := by decide
theorem test_decode_eq : decode [0x0004, 0x8000, 0x8001, 0x0004] = .ok (.eq (.reg 0) (.reg 1) (.lit 4), []) := by decide
theorem test_decode_gt : decode [0x0005, 0x8000, 0x0005, 0x0003] = .ok (.gt (.reg 0) (.lit 5) (.lit 3), []) := by decide
theorem test_decode_jmp : decode [0x0006, 0x0064, 9] = .ok (.jmp (.lit 100), [9]) := by decide
theorem test_decode_jt : decode [0x0007, 0x0001, 0x0032] = .ok (.jt (.lit 1) (.lit 50), []) := by decide
theorem test_decode_jf : decode [0x0008, 0x8000, 0x0032] = .ok (.jf (.reg 0) (.lit 50), []) := by decide
theorem test_decode_add : decode [0x0009, 0x000A, 0x0002, 0x0003] = .ok (.add (.lit 10) (.lit 2) (.lit 3), []) := by decide
theorem test_decode_mult : decode [0x000A, 0x8000, 0x012C, 0x012C] = .ok (.mult (.reg 0) (.lit 300) (.lit 300), []) := by decide
theorem test_decode_mod : decode [0x000B, 0x8000, 0x0011, 0x0005] = .ok (.mod (.reg 0) (.lit 17) (.lit 5), []) := by decide
theorem test_decode_and : decode [0x000C, 0x8000, 0x000C, 0x000A] = .ok (.and (.reg 0) (.lit 12) (.lit 10), []) := by decide
theorem test_decode_or : decode [0x000D, 0x8000, 0x000C, 0x000A] = .ok (.or (.reg 0) (.lit 12) (.lit 10), []) := by decide
theorem test_decode_not : decode [0x000E, 0x8000, 0x5555] = .ok (.not (.reg 0) (.lit 21845), []) := by decide
theorem test_decode_rmem : decode [0x000F, 0x8000, 0x8001] = .ok (.rmem (.reg 0) (.reg 1), []) := by decide
theorem test_decode_wmem : decode [0x0010, 0x9C40, 0x0009] = .ok (.wmem (.outOfRange 40000) (.lit 9), []) := by decide
theorem test_decode_call : decode [0x0011, 0x8001] = .ok (.call (.reg 1), []) := by decide
theorem test_decode_ret : decode [0x0012] = .ok (.ret, []) := by decide
theorem test_decode_out : decode [0x0013, 0x0048] = .ok (.out (.lit 72), []) := by decide
theorem test_decode_in : decode [0x0014, 0x8007] = .ok (.inp (.reg 7), []) := by decide
theorem test_decode_noop : decode [0x0015, 21] = .ok (.noop, [21]) := by decide

/-- R57, V130, V133: no neighbour is decoded instead; the opcode cell is never normalised. -/
theorem test_decode_illegal :
    decode [22] = .error (.illegalOpcode 22) ∧ decode [32787, 72] = .error (.illegalOpcode 32787) := by decide

/-- R50: a missing operand cell; no cell at all. -/
theorem test_decode_short : decode [9, 1, 2] = .error (.missingOperand 9) ∧ decode [] = .error .noCell := by decide

/-- The table's numbering: the first cell in the low 16 bits; `add 10 2 3` (V55). -/
theorem test_table_word :
    decodeTableWord 64 0x0003_0002_000A_0009 = some (.add (.lit 10) (.lit 2) (.lit 3)) ∧
      decodeTableWord 16 0x0009 = some (.add (.lit 0) (.lit 0) (.lit 0)) := by decide

/-- The word of a row placed after reset is what the first step runs: `noop`. -/
theorem test_fetch_word : see (step (State.reset.withFetchWord 16 21)) (·.pc) = some 1 := by decide

/-! ### Operand classes at their boundaries (EX10) -/

theorem test_class_literal : decodeOperand 0 = .lit 0 ∧ decodeOperand 32767 = .lit 32767 := by decide
theorem test_class_register : decodeOperand 32768 = .reg 0 ∧ decodeOperand 32775 = .reg 7 := by decide
theorem test_class_normalized :
    classify .normalize (decodeOperand 32776) = .ok (.lit 8) ∧
      classify .normalize (decodeOperand 65535) = .ok (.lit 32767) := by decide
theorem test_class_rejected :
    classify .reject (decodeOperand 32776) = .error 32776 ∧ classify .reject (decodeOperand 32775) = .ok (.reg 7) := by
  decide

/-! ### The instructions, at most two tests each -/

/-- V1, V3: the pc is advanced, to 32768 at the last cell. -/
theorem test_halt : status (step (load [0])) = some (.halted, .haltInstr, 0, 1) := by decide
theorem test_halt_last : status (step (loadAt 32767 [0])) = some (.halted, .haltInstr, 0, 32768) := by decide

/-- V11; V15: the raw cell is reported and no memory written. -/
theorem test_set : see (step (withReg (load [1, 32771, 32773]) 5 777)) (fun s => (s.reg 3, s.reg 5, s.pc)) =
    some (777, 777, 3) := by decide
theorem test_set_no_register : see (step (load [1, 40000, 7])) (fun s => (s.cause, s.info, s.pc, s.memRead 7232)) =
    some (.invalidWriteTarget, 40000, 0, 0) := by decide

/-- V21; V22. -/
theorem test_push : see (step { withReg (load [2, 32770]) 2 9 with stack := [1] }) (fun s => (s.stack, s.pc)) =
    some ([1, 9], 2) := by decide
theorem test_push_max : see (step (load [2, 32767])) (·.stack) = some [32767] := by decide

/-- V23, V25; V24. -/
theorem test_pop : see (step { load [3, 32769] with stack := [6, 5] }) (fun s => (s.reg 1, s.stack, s.pc)) =
    some (5, [6], 2) := by decide
theorem test_pop_empty : status (step (load [3, 32768])) = some (.halted, .stackUnderflow, 0, 0) := by decide

/-- V33; V34. -/
theorem test_eq_memory : see (step (load [4, 50, 7, 7])) (fun s => (s.memRead 50, s.pc)) = some (1, 4) := by decide
theorem test_eq_normalized : see (step (load [4, 32768, 32776, 8])) (·.reg 0) = some 1 := by decide

/-- V36; V39: unsigned. -/
theorem test_gt_less : see (step (withReg (load [5, 32768, 3, 5]) 0 1)) (·.reg 0) = some 0 := by decide
theorem test_gt_unsigned : see (step (load [5, 32768, 16384, 16383])) (·.reg 0) = some 1 := by decide

/-- V41. -/
theorem test_jmp : see (step (withReg (load [6, 32769]) 1 2000)) (·.pc) = some 2000 := by decide

/-- V46; V45. -/
theorem test_jt_taken : see (step (withReg (withReg (load [7, 32768, 32769]) 0 32767) 1 9)) (·.pc) = some 9 := by decide
theorem test_jt_not : see (step (load [7, 0, 50])) (·.pc) = some 3 := by decide

/-- V49; V48. -/
theorem test_jf_taken : see (step (load [8, 32768, 50])) (·.pc) = some 50 := by decide
theorem test_jf_not : see (step (load [8, 1, 50])) (·.pc) = some 3 := by decide

/-- V54: a source is also the destination; V56: it overwrites its own operand cell. -/
theorem test_add_wraps : see (step (withReg (load [9, 32768, 32768, 32768]) 0 20000)) (fun s => (s.reg 0, s.pc)) =
    some (7232, 4) := by decide
theorem test_add_own_cell : see (step (load [9, 1, 2, 3])) (·.memRead 1) = some 5 := by decide

/-- V60; V61. -/
theorem test_mult : see (step (load [10, 32768, 300, 300])) (·.reg 0) = some 24464 := by decide
theorem test_mult_max : see (step (load [10, 32768, 32767, 32767])) (·.reg 0) = some 1 := by decide

/-- V70; V77. -/
theorem test_mod : see (step (load [11, 32768, 17, 5])) (fun s => (s.reg 0, s.pc)) = some (2, 4) := by decide
theorem test_mod_zero : see (step (withReg (load [11, 32768, 7, 32769]) 0 3)) (fun s => (s.reg 0, s.cause, s.pc)) =
    some (3, .divisionByZero, 0) := by decide

/-- V80; V82. -/
theorem test_and : see (step (load [12, 32768, 12, 10])) (·.reg 0) = some 8 := by decide
theorem test_and_disjoint : see (step (withReg (load [12, 32768, 21845, 10922]) 0 1)) (·.reg 0) = some 0 := by decide

/-- V83; V84. -/
theorem test_or : see (step (load [13, 32768, 12, 10])) (·.reg 0) = some 14 := by decide
theorem test_or_all : see (step (load [13, 32768, 21845, 10922])) (·.reg 0) = some 32767 := by decide

/-- V86; V89. -/
theorem test_not_zero : see (step (load [14, 32768, 0])) (fun s => (s.reg 0, s.pc)) = some (32767, 3) := by decide
theorem test_not_self : see (step (withReg (load [14, 32768, 32768]) 0 1)) (·.reg 0) = some 32766 := by decide

/-- V93: the cell read is not classified; V95. -/
theorem test_rmem_raw : see (step (withReg (load [15, 32768, 3, 32769]) 1 77)) (fun s => (s.reg 0, s.pc)) =
    some (1, 3) := by decide
theorem test_rmem_self : see (step (withReg (load [15, 32768, 32768, 0, 0, 555]) 0 5)) (·.reg 0) = some 555 := by decide

/-- V97: the register holds the address; V100. -/
theorem test_wmem_indirect : see (step (withReg (load [16, 32768, 5]) 0 100)) (fun s => (s.reg 0, s.memRead 100, s.pc)) =
    some (100, 5, 3) := by decide
theorem test_wmem_normalized : see (step (load [16, 40000, 9])) (·.memRead 7232) = some 9 := by decide

/-- V111; V112: the return address of a call in the last two cells. -/
theorem test_call : see (step { withReg (load [17, 32769]) 1 300 with stack := [7] }) (fun s => (s.stack, s.pc)) =
    some ([7, 2], 300) := by decide
theorem test_call_last : see (step (loadAt 32766 [17, 5])) (fun s => (s.stack, s.pc)) = some ([0], 5) := by decide

/-- V113; V114. -/
theorem test_ret : see (step { load [18] with stack := [7, 44] }) (fun s => (s.stack, s.pc)) = some ([7], 44) := by decide
theorem test_ret_empty : status (step (load [18])) = some (.halted, .retEmpty, 0, 0) := by decide

/-- V121. -/
theorem test_out : see (step (withReg (load [19, 32768]) 0 32767)) (fun s => (s.output, s.pc)) =
    some ([32767], 2) := by decide

/-- V127: a code above 32767; V125: it waits. -/
theorem test_in_wide : see (step { load [20, 32768] with lines := [[128512, 10]] })
    (fun s => (s.reg 0, s.inbuf, s.lines, s.pc)) = some (30208, [10], [], 2) := by decide
theorem test_in_waits : status (step (load [20, 32768])) = some (.running, .none, 0, 0) ∧
    (load [20, 32768]).waiting = true := by decide

/-- V2. -/
theorem test_noop : status (step (load [21])) = some (.running, .none, 0, 1) := by decide

/-! ### The fetch and the operand check -/

/-- V132; V134; V135. -/
theorem test_illegal_opcode : status (step (load [65535])) = some (.halted, .invalidOpcode, 65535, 0) := by decide
theorem test_operand_beyond : status (step (loadAt 32767 [19])) = some (.halted, .pcOutOfRange, 32767, 32767) := by decide
theorem test_operand_beyond_add :
    status (step (loadAt 32765 [9, 32768, 1])) = some (.halted, .pcOutOfRange, 32765, 32765) := by decide

/-- V136: the last instruction that fits. -/
theorem test_last_that_fits : see (step (loadAt 32764 [9, 32768, 1, 2])) (fun s => (s.reg 0, s.pc)) =
    some (3, 32768) := by decide

/-- V4, second step. -/
theorem test_pc_beyond : status (step { State.reset with pc := 32768 }) =
    some (.halted, .pcOutOfRange, 32768, 32768) := by decide

/-- V18: the operand check comes before `set`'s own; V138: the first of two; V128: before `in` waits. -/
theorem test_reject_before_set : status (step { load [1, 5, 40000] with policy := .reject }) =
    some (.halted, .outOfRangeOperand, 171072, 0) := by decide
theorem test_reject_first : status (step { load [4, 40000, 50000, 1] with policy := .reject }) =
    some (.halted, .outOfRangeOperand, 105536, 0) := by decide
theorem test_reject_before_in :
    see (step { load [20, 40000] with policy := .reject, lines := [[97, 10]] }) (fun s => (s.cause, s.lines)) =
      some (.outOfRangeOperand, [[97, 10]]) := by decide

/-- R90: a halted machine stays. -/
theorem test_halted : see (step { load [21] with run := .halted, cause := .haltInstr }) (·.pc) = some 0 := by decide

/-- R151: the codes of the fatal causes. -/
theorem test_cause_codes : [Cause.none, .haltInstr, .retEmpty, .pcOutOfRange, .stackUnderflow, .invalidWriteTarget,
    .divisionByZero, .outOfRangeOperand, .invalidOpcode].map Cause.code = [0, 1, 2, 3, 4, 5, 6, 7, 8] := by decide

/-- R157: a run that ends by its own instruction is safe; one that ends fatally or off range is not. -/
theorem test_safe : [Cause.none, .haltInstr, .retEmpty, .pcOutOfRange, .stackUnderflow].map
    (fun c => ({ State.reset with cause := c } : State).safe) = [true, true, true, false, false] := by decide

/-- R133: the example line `[97, 10]` keeps the Console's promise, a line with no codes does not. -/
theorem test_line_ok : lineOk [97, 10] = true ∧ lineOk [] = false := by decide

/-- R91: `out 72` then `halt` ends cleanly (P2); a program that jumps to itself has no result (P14). -/
theorem test_host_run : hostRun 2 (load [19, 72, 0]) = some (.haltInstr, 0) ∧ hostRun 2 (load [6, 0]) = none := by decide

/-! ### Witnesses: the hypotheses of each statement are met together -/

/-- One state and three operands, a register, a literal and a normalised cell, for every statement that asks only that
its operands be classified: SetLoadsRegister, PushAppends, EqStoresTruth, GtStoresTruth, JmpLoadsPc, JtJumpsIfNonZero,
JfJumpsIfZero, AddStoresSum, MultStoresProduct, AndStoresCommonBits, OrStoresEitherBits, NotStoresComplement,
RmemStoresTheCell, WmemStoresTheValue, CallPushesReturnAddress, OutEmitsTheValue. -/
theorem witness_operands : classify State.reset.policy (.reg 0) = .ok (.reg 0) ∧
    classify State.reset.policy (.lit 7) = .ok (.lit 7) ∧
    classify State.reset.policy (.outOfRange 40000) = .ok (.lit 7232) := by decide

theorem witness_decodeEncodeRoundTrip : (Instr.eq (.reg 7) (.lit 32767) (.outOfRange 65535)).wellFormed = true := by decide
theorem witness_decodedCellsAreTheEncoding : decode [4, 32775, 65535, 32767, 1] =
    .ok (.eq (.reg 7) (.outOfRange 65535) (.lit 32767), [1]) := by decide

/-- The clauses of OperandClassByRange meet at 32767, 32768, 32775, 32776 and end at 65535. -/
theorem witness_operandClassByRange : (32767#16).toNat ≤ 32767 ∧ 32768 ≤ (32768#16).toNat ∧ (32775#16).toNat ≤ 32775 ∧
    32776 ≤ (32776#16).toNat ∧ 32776 ≤ (65535#16).toNat := by decide

theorem witness_outOfRangeOperandHalts : ({ State.reset with policy := .reject } : State).policy = .reject ∧
    (Instr.eq (.lit 1) (.outOfRange 40000) (.outOfRange 50000)).operands =
      [.lit 1] ++ .outOfRange 40000 :: [.outOfRange 50000] ∧ ∀ d, Operand.outOfRange d ∉ [Operand.lit 1] :=
  ⟨rfl, rfl, by simp⟩

theorem witness_stepRunsDecodedInstruction : (load [2, 6]).run = .running ∧
    decode ((load [2, 6]).cellsFrom (load [2, 6]).pc.toNat 4) = .ok (.push (.lit 6), [0, 0]) := by decide

theorem witness_stepRunsTheInstructionInMemory : (loadAt 32766 [17, 5]).run = .running ∧
    (Instr.call (.lit 5)).wellFormed = true ∧ (loadAt 32766 [17, 5]).pc.toNat + (Instr.call (.lit 5)).length ≤ 32768 ∧
    ∀ k, k < (Instr.call (.lit 5)).length →
      (encode (.call (.lit 5)))[k]? = some ((loadAt 32766 [17, 5]).mem.read ((loadAt 32766 [17, 5]).pc.toNat + k)) := by
  decide

theorem witness_stepPcBeyondMemoryHalts : State.reset.run = .running ∧
    32767 < ({ State.reset with pc := 32768 } : State).pc.toNat := by decide
theorem witness_stepIllegalOpcodeHalts : (load [22]).run = .running ∧ (load [22]).pc.toNat ≤ 32767 ∧
    21 < ((load [22]).mem.read (load [22]).pc.toNat).toNat := by decide
theorem witness_stepMissingOperandCellHalts : (loadAt 32767 [19]).run = .running ∧ (loadAt 32767 [19]).pc.toNat ≤ 32767 ∧
    operandCount ((loadAt 32767 [19]).mem.read (loadAt 32767 [19]).pc.toNat) = some 1 ∧
    32767 < (loadAt 32767 [19]).pc.toNat + 1 := by decide
theorem witness_haltedMachineNeverMoves : ({ State.reset with run := .halted } : State).run = .halted := by decide

/-- Both clauses of StepAlwaysAnswersNext have a state. -/
theorem witness_stepAlwaysAnswersNext : State.reset.run = .running ∧
    ({ State.reset with run := .halted } : State).run = .halted := by decide

/-- Both cases of HaltsArePrecise: `halt`, and `ret` with an empty stack; the second is also one of the cases of
HaltsExactlyInTheListedCases. -/
theorem witness_haltsArePrecise :
    (∃ t, (load [0]).run = .running ∧ step (load [0]) = .next t ∧ t.run = .halted ∧ t.cause = .haltInstr) ∧
    ∃ t, (load [18]).run = .running ∧ step (load [18]) = .next t ∧ t.run = .halted ∧ t.cause = .retEmpty :=
  ⟨⟨_, rfl, rfl, rfl, rfl⟩, _, rfl, rfl, rfl, rfl⟩
theorem witness_haltsExactlyInTheListedCases : ∃ t, (load [21]).run = .running ∧ step (load [21]) = .next t ∧
    t.run = .running := ⟨_, rfl, rfl, rfl⟩

/-- One image that fits, one cell too many. -/
theorem witness_resetPutsTheListedState : ([19, 72, 0] : List Cell).length ≤ 32768 ∧
    32768 < (List.replicate 32769 (0 : Cell)).length :=
  ⟨by decide, by rw [List.length_replicate]; decide⟩
theorem witness_resetMemoryIsImageThenZeros : ∃ s,
    State.resetWith .normalize (Vector.replicate 8 0) [19, 72, 0] [] = some s := ⟨_, rfl⟩
theorem witness_resetMeetsInvariant : ∃ s,
    State.resetWith .reject (Vector.replicate 8 7) [19, 72, 0] [[97, 10]] = some s := ⟨_, rfl⟩

theorem witness_stepKeepsInvariant : ∃ t, (load [9, 50, 2, 3]).inv = true ∧ step (load [9, 50, 2, 3]) = .next t :=
  ⟨_, by decide, rfl⟩
theorem witness_normalizeNeverRejects : ∃ t, (load [2, 40000]).policy = .normalize ∧
    (load [2, 40000]).cause ≠ .outOfRangeOperand ∧ step (load [2, 40000]) = .next t := ⟨_, rfl, by decide, rfl⟩

/-- Both clauses of OnlyTheJumpFamilySetsPc. -/
theorem witness_onlyTheJumpFamilySetsPc :
    (∃ t, State.reset.run = .running ∧ exec .noop State.reset = .next t ∧ t.run = .running ∧ setsPc .noop = false) ∧
    ∃ t, exec (.jmp (.lit 100)) State.reset = .next t ∧ t.run = .running ∧ setsPc (.jmp (.lit 100)) = true :=
  ⟨⟨_, rfl, rfl, rfl, rfl⟩, _, rfl, rfl, rfl⟩

/-- Both writers: `wmem`, and a literal write target. -/
theorem witness_memoryChangesOnlyByItsWriters :
    (∃ t, exec (.wmem (.lit 100) (.lit 5)) State.reset = .next t ∧ t.mem.read 100 ≠ State.reset.mem.read 100) ∧
    ∃ t, exec (.eq (.lit 50) (.lit 7) (.lit 7)) State.reset = .next t ∧ t.mem.read 50 ≠ State.reset.mem.read 50 :=
  ⟨⟨_, rfl, by decide⟩, _, rfl, by decide⟩
theorem witness_writtenCellsHaveBit15Clear : ∃ t, step (load [16, 100, 32767]) = .next t ∧
    t.mem.read 100 ≠ (load [16, 100, 32767]).mem.read 100 := ⟨_, rfl, by decide⟩
theorem witness_registersChangeOnlyAsTargets : ∃ t, exec (.set (.reg 7) (.lit 1)) State.reset = .next t ∧
    t.reg 7 ≠ State.reset.reg 7 := ⟨_, rfl, by decide⟩

/-- The three answers of StackChangesOnlyByItsInstructions. -/
theorem witness_stackChangesOnlyByItsInstructions :
    (∃ t, exec (.push (.lit 6)) State.reset = .next t) ∧ (∃ t, exec .noop State.reset = .next t) ∧
    ∃ t, exec .ret { State.reset with stack := [44] } = .next t := ⟨⟨_, rfl⟩, ⟨_, rfl⟩, _, rfl⟩
theorem witness_onlyOutEmitsOnlyInConsumes : (∃ t, step (load [19, 72]) = .next t) ∧
    ∃ t, step { load [20, 0] with lines := [[97, 10]] } = .next t := ⟨⟨_, rfl⟩, _, rfl⟩
theorem witness_outputIsNeverRead : ∃ t, step { load [19, 72] with output := [1] } = .next t := ⟨_, rfl⟩
theorem witness_storeIsSeenByTheNextFetch : classify State.reset.policy (.lit 3) = .ok (.lit 3) ∧
    classify State.reset.policy (.lit 21) = .ok (.lit 21) ∧
    ∃ t u : State, exec (.wmem (.lit 3) (.lit 21)) State.reset = .next t ∧ u.mem = t.mem ∧
      u.pc.toNat = (State.reset.value (.lit 3)).toNat := ⟨rfl, rfl, _, ({ State.reset with
        mem := [(3, 21)], pc := 3 } : State), rfl, by decide, by decide⟩
theorem witness_stackIsLastInFirstOut : (1 : Fin 8) ≠ 2 := by decide
theorem witness_callThenRetResumes : classify State.reset.policy (.lit 4) = .ok (.lit 4) ∧
    State.reset.pc.toNat + 2 ≤ 32767 ∧ (loadAt 32765 []).pc.toNat + 2 ≤ 32767 := by decide
theorem witness_hostRunResultIsStable : hostRun 1 State.reset = some (.haltInstr, 0) := by decide

theorem witness_setWithoutRegisterHalts : classify State.reset.policy (.lit 5) = .ok (.lit 5) ∧
    classify State.reset.policy (.outOfRange 40000) = .ok (.lit 7232) := by decide
theorem witness_popStoresTheTop : classify State.reset.policy (.lit 100) = .ok (.lit 100) ∧
    ({ State.reset with stack := [6, 5] } : State).stack = [6] ++ [5] := by decide
theorem witness_popEmptyHalts : classify State.reset.policy (.reg 0) = .ok (.reg 0) ∧ State.reset.stack = [] := by decide
theorem witness_modStoresRemainder : classify State.reset.policy (.reg 0) = .ok (.reg 0) ∧
    classify State.reset.policy (.lit 17) = .ok (.lit 17) ∧
    classify State.reset.policy (.outOfRange 65535) = .ok (.lit 32767) ∧ State.reset.value (.lit 32767) ≠ 0 := by decide
theorem witness_modByZeroHalts : classify State.reset.policy (.lit 10) = .ok (.lit 10) ∧
    classify State.reset.policy (.lit 7) = .ok (.lit 7) ∧ classify State.reset.policy (.reg 1) = .ok (.reg 1) ∧
    State.reset.value (.reg 1) = 0 := by decide
theorem witness_retJumpsToThePopped : ({ State.reset with stack := [32767] } : State).stack = [] ++ [32767] := by decide
theorem witness_retEmptyHaltsCleanly : State.reset.stack = [] := by decide
theorem witness_inDeliversTheNextCode : classify State.reset.policy (.reg 0) = .ok (.reg 0) ∧
    ({ State.reset with inbuf := [10] } : State).inbuf = 10 :: [] := by decide
theorem witness_inReadsALine : classify State.reset.policy (.lit 100) = .ok (.lit 100) ∧ State.reset.inbuf = [] ∧
    ({ State.reset with lines := [[], [97, 10]] } : State).lines = [[]] ++ (97 :: [10]) :: [] ∧
    ([[]] : List Line).all List.isEmpty = true := by decide
theorem witness_inWaitsWithoutALine : classify State.reset.policy (.reg 0) = .ok (.reg 0) ∧
    State.reset.inbuf = [] ∧ State.reset.lines.all List.isEmpty = true := by decide
theorem witness_waitEndsWhenALineIsDelivered : (load [20, 32768]).waiting = true := by decide

end Sys2Proof.Tests
end

section
/-! The state family (10_state.md): what a machine holds right after the host's reset. -/

namespace Sys2Proof.Machine

/-- Reset answers for exactly the images that fit, and then with the state of 70_reset_and_hazards.md R180. -/
theorem State.resetWith_eq_some_iff {policy : OperandPolicy} {regs : Vector Value 8} {image : List Cell}
    {input : List Line} {s : State} :
    State.resetWith policy regs image input = some s ↔
      image.length ≤ 32768 ∧
        s = { State.reset with regs := regs, mem := Memory.ofImage 0 image, policy := policy, lines := input } := by
  simp [State.resetWith, eq_comm]

/-- Settles O17: the memory of a reset is its image laid out from address 0, and `Memory.read_ofImage` gives its
cells. -/
theorem resetMemoryIsImageThenZeros : Obligations.ResetMemoryIsImageThenZeros := by
  intro policy regs image input s hreset a
  obtain ⟨-, rfl⟩ := State.resetWith_eq_some_iff.mp hreset
  have hread : (Memory.ofImage 0 image).read a = image.getD a 0 := by
    simpa only [Nat.zero_add] using Memory.read_ofImage image 0 a
  split
  · next ha => exact hread.trans (List.getD_eq_getElem image 0 ha)
  · next ha => exact hread.trans (List.getD_eq_default image 0 (Nat.le_of_not_lt ha))

end Sys2Proof.Machine
end

section
/-! The memory family (20_memory.md): what a step may put into memory. -/

namespace Sys2Proof.Machine

/-- `m'` is `m`, or `m` with one value stored at one address (20_memory.md R33, R36). -/
def Memory.StoresAtMostOneValue (m m' : Memory) : Prop :=
  m' = m ∨ ∃ a v : Value, m' = m.write a.toNat (v.setWidth 16)

/-- The write of a result stores at a memory target and leaves memory alone at a register. -/
theorem State.write_storesAtMostOneValue (s : State) (t : Target) (v : Nat) :
    s.mem.StoresAtMostOneValue (s.write t v).mem := by
  cases t with
  | reg i => exact .inl rfl
  | mem n => exact .inr ⟨n, _, rfl⟩

/-- Only a written result and `wmem` reach memory; every other effect, the halts included, keeps it. -/
theorem Effect.storesAtMostOneValue {s t : State} {i : Instr} (h : Effect s i t) :
    s.mem.StoresAtMostOneValue t.mem := by
  cases h with
  | rejected h =>
    obtain ⟨_, _, _, _, _, _, rfl⟩ := h
    exact .inl rfl
  | result | popped | received => exact State.write_storesAtMostOneValue ..
  | stored => exact .inr ⟨_, _, rfl⟩
  | _ => exact .inl rfl

/-- A step of a halted machine and a fetch that halts keep memory; the rest is the instruction's effect. -/
theorem step_storesAtMostOneValue {s t : State} (h : step s = .next t) : s.mem.StoresAtMostOneValue t.mem := by
  rcases step_inv h with ⟨-, rfl⟩ | ⟨-, e, -, rfl⟩ | ⟨-, i, rest, -, -, heff⟩
  · exact .inl rfl
  · obtain ⟨c, info, hhalt⟩ := fetchHalt_eq s e
    exact .inl (by rw [hhalt, State.haltWith_mem])
  · exact heff.storesAtMostOneValue

/-- A cell holding something else after the store holds the stored value, whose bit 15 is 0 (20_memory.md R36). -/
theorem Memory.StoresAtMostOneValue.read_le {m m' : Memory} {a : Nat} (h : m.StoresAtMostOneValue m')
    (hne : m'.read a ≠ m.read a) : (m'.read a).toNat ≤ 32767 := by
  rcases h with rfl | ⟨b, v, rfl⟩
  · exact absurd rfl hne
  · rw [Memory.read_write] at hne ⊢
    split at hne
    · next hab =>
      rw [if_pos hab, BitVec.toNat_setWidth_of_le (by decide)]
      exact Nat.le_of_lt_succ v.isLt
    · exact absurd rfl hne

/-- Settles O23: a step stores at most one value, and only the cell it goes to can change. -/
theorem writtenCellsHaveBit15Clear : Obligations.WrittenCellsHaveBit15Clear := by
  intro s t a hstep hne
  exact (step_storesAtMostOneValue hstep).read_le hne

end Sys2Proof.Machine
end

section
/-! The encoding family (30_encoding.md): decoding and encoding are inverse. -/

namespace Sys2Proof.Machine

/-- Every operand of a well-formed instruction is read back from its cell. -/
theorem decodeOperand_cell_of_mem {i : Instr} {o : Operand} (hwf : i.wellFormed = true) (ho : o ∈ i.operands) :
    decodeOperand o.cell = o :=
  decodeOperand_cell (List.all_eq_true.mp hwf o ho)

/-! One round trip per format of 30_encoding.md R51: the opcode cell selects the constructor, and each operand is read
back from its own cell. -/

theorem EncodedF0.decode_encode {i : Instr} (h : EncodedF0 i.opcode.toNat i) (hops : i.operands = [])
    (rest : List Cell) : decode (encode i ++ rest) = .ok (i, rest) := by
  simpa [encode, hops] using h rest

theorem EncodedF1.decode_encode {mk : Operand → Instr} {a : Operand} (h : EncodedF1 (mk a).opcode.toNat mk)
    (hops : (mk a).operands = [a]) (hwf : (mk a).wellFormed = true) (rest : List Cell) :
    decode (encode (mk a) ++ rest) = .ok (mk a, rest) := by
  have ha := decodeOperand_cell_of_mem (o := a) hwf (by simp [hops])
  simpa [encode, hops, ha] using h a.cell rest

theorem EncodedF2.decode_encode {mk : Operand → Operand → Instr} {a b : Operand}
    (h : EncodedF2 (mk a b).opcode.toNat mk) (hops : (mk a b).operands = [a, b])
    (hwf : (mk a b).wellFormed = true) (rest : List Cell) :
    decode (encode (mk a b) ++ rest) = .ok (mk a b, rest) := by
  have ha := decodeOperand_cell_of_mem (o := a) hwf (by simp [hops])
  have hb := decodeOperand_cell_of_mem (o := b) hwf (by simp [hops])
  simpa [encode, hops, ha, hb] using h a.cell b.cell rest

theorem EncodedF3.decode_encode {mk : Operand → Operand → Operand → Instr} {a b c : Operand}
    (h : EncodedF3 (mk a b c).opcode.toNat mk) (hops : (mk a b c).operands = [a, b, c])
    (hwf : (mk a b c).wellFormed = true) (rest : List Cell) :
    decode (encode (mk a b c) ++ rest) = .ok (mk a b c, rest) := by
  have ha := decodeOperand_cell_of_mem (o := a) hwf (by simp [hops])
  have hb := decodeOperand_cell_of_mem (o := b) hwf (by simp [hops])
  have hc := decodeOperand_cell_of_mem (o := c) hwf (by simp [hops])
  simpa [encode, hops, ha, hb, hc] using h a.cell b.cell c.cell rest

/-- Settles O1, by the instruction's format. -/
theorem decodeEncodeRoundTrip : Obligations.DecodeEncodeRoundTrip := by
  intro i rest hwf
  cases i with
  | halt | ret | noop => exact EncodedF0.decode_encode (fun _ => rfl) rfl rest
  | push a | pop a | jmp a | call a | out a | inp a =>
    exact EncodedF1.decode_encode (fun _ _ => rfl) rfl hwf rest
  | set a b | jt a b | jf a b | not a b | rmem a b | wmem a b =>
    exact EncodedF2.decode_encode (fun _ _ _ => rfl) rfl hwf rest
  | eq a b c | gt a b c | add a b c | mult a b c | mod a b c | and a b c | or a b c =>
    exact EncodedF3.decode_encode (fun _ _ _ _ => rfl) rfl hwf rest

/-- The cells of operands read from cells are those cells. -/
theorem map_cell_map_decodeOperand (cells : List Cell) :
    (cells.map decodeOperand).map Operand.cell = cells := by
  simp [Function.comp_def, cell_decodeOperand]

/-- An instruction read from cells encodes to the cells it was read from. -/
theorem encode_append_of_decode_ok {cells rest : List Cell} {i : Instr} (h : decode cells = .ok (i, rest)) :
    encode i ++ rest = cells := by
  cases cells with
  | nil => cases h
  | cons op tl =>
    rcases decode_cons_cases op tl with ⟨_, _, hdec⟩ | ⟨n, _, ⟨_, hdec⟩ | ⟨_, j, hdec, hop, hops⟩⟩
    · cases hdec.symm.trans h
    · cases hdec.symm.trans h
    · cases hdec.symm.trans h
      rw [encode, hop, hops, map_cell_map_decodeOperand, List.cons_append, List.take_append_drop]

/-- Settles O2: each operand read from a cell encodes to that cell, and what the decoder takes is well formed. -/
theorem decodedCellsAreTheEncoding : Obligations.DecodedCellsAreTheEncoding := by
  intro cells rest i h
  obtain ⟨hwf, -, -⟩ := decode_ok h
  exact ⟨hwf, encode_append_of_decode_ok h⟩

end Sys2Proof.Machine
end

section
/-! The operand family (40_operand_resolution.md): what a raw operand cell denotes and where a result goes. -/

namespace Sys2Proof.Machine

/-- A number modulo 32768 is kept by the value made from it. -/
theorem toNat_ofNat_mod (v : Nat) : (BitVec.ofNat 15 (v % 32768)).toNat = v % 32768 :=
  (BitVec.toNat_ofNat _ 15).trans (Nat.mod_mod v 32768)

/-! ### The class of a raw cell, one lemma per range (R70) -/

theorem classify_decodeOperand_literal {p : OperandPolicy} {c : Cell} (h : c.toNat ≤ 32767) :
    classify p (decodeOperand c) = .ok (.lit (BitVec.ofNat 15 c.toNat)) := by
  rw [decodeOperand_literal h, classify_lit, BitVec.ofNat_toNat]

theorem classify_decodeOperand_register {p : OperandPolicy} {c : Cell} (h : 32768 ≤ c.toNat) (h' : c.toNat ≤ 32775) :
    classify p (decodeOperand c) = .ok (.reg ⟨c.toNat - 32768, by omega⟩) := by
  have hi : c.toNat - 32768 < 8 := by omega
  simp only [decodeOperand_register h h', classify_reg, Nat.mod_eq_of_lt hi]

theorem classify_decodeOperand_normalize {c : Cell} (h : 32776 ≤ c.toNat) :
    classify .normalize (decodeOperand c) = .ok (.lit (BitVec.ofNat 15 (c.toNat % 32768))) := by
  rw [decodeOperand_outOfRange h, classify_normalize]

theorem classify_decodeOperand_reject {c : Cell} (h : 32776 ≤ c.toNat) :
    classify .reject (decodeOperand c) = .error c := by
  rw [decodeOperand_outOfRange h, classify_reject]

/-- Settles O4, range by range; both literals are 15-bit numbers, so they keep the number they are made from. -/
theorem operandClassByRange : Obligations.OperandClassByRange := by
  intro policy c
  refine ⟨fun h => ?literal, fun h h' => ?register, fun h hp => ?normalize, fun h hp => ?reject⟩
  case literal =>
    exact ⟨_, classify_decodeOperand_literal h, (BitVec.toNat_ofNat _ 15).trans (Nat.mod_eq_of_lt (Nat.lt_succ_of_le h))⟩
  case register =>
    exact ⟨_, classify_decodeOperand_register h h', rfl⟩
  case normalize =>
    subst hp
    exact ⟨_, classify_decodeOperand_normalize h, toNat_ofNat_mod _⟩
  case reject =>
    subst hp
    exact classify_decodeOperand_reject h

/-! ### The write of a result (R73) -/

/-- So is it by the cell of that value, whose bit 15 is 0. -/
theorem toNat_setWidth_ofNat_mod (v : Nat) : ((BitVec.ofNat 15 (v % 32768)).setWidth 16).toNat = v % 32768 :=
  (BitVec.toNat_setWidth_of_le (by decide)).trans (toNat_ofNat_mod v)

/-- Only registers, memory and the pc differ after a write and the advance. -/
theorem State.sameButRegsMemPc_write_advance (s : State) (t : Target) (v len : Nat) :
    SameButRegsMemPc s ((s.write t v).advance len) := by
  simp [SameButRegsMemPc]

/-- The write of a result followed by the advance, the shape every instruction with a target ends in. -/
theorem State.storesResult_write_advance (s : State) (k : Resolved) (v len : Nat) :
    StoresResult s ((s.write (target k) v).advance len) k v len := by
  refine ⟨fun j => ?reg, fun a => ?mem, ?pc, s.sameButRegsMemPc_write_advance (target k) v len⟩
  case reg =>
    rw [State.reg_advance, State.reg_write]
    cases k with
    | lit n => simp
    | reg i => simp only [target_reg, Target.reg.injEq, eq_comm (a := i), apply_ite BitVec.toNat, toNat_ofNat_mod]
  case mem =>
    rw [State.advance_mem, State.read_write]
    cases k with
    | lit n => simp only [target_lit, apply_ite BitVec.toNat, toNat_setWidth_ofNat_mod]
    | reg i => rfl
  case pc => rw [State.advance_pc, State.write_pc]

/-- Settles O5: a write alone is a write and no advance. -/
theorem writeStoresModulo : Obligations.WriteStoresModulo := by
  intro s k v
  simpa only [State.advance_zero] using s.storesResult_write_advance k v 0

end Sys2Proof.Machine
end

section
/-! The execution loop family (41_execution_loop.md): a running machine executes the instruction that stands at the
pc. -/

namespace Sys2Proof.Machine

/-- The shape laws of the 22 instructions, as one law of every instruction (30_encoding.md R50, R51). -/
theorem instr_shape : ∀ i : Instr, Laws.Shape.Statement i
  | .halt => Laws.Shape.halt
  | .set a b => Laws.Shape.set a b
  | .push a => Laws.Shape.push a
  | .pop a => Laws.Shape.pop a
  | .eq a b c => Laws.Shape.eq a b c
  | .gt a b c => Laws.Shape.gt a b c
  | .jmp a => Laws.Shape.jmp a
  | .jt a b => Laws.Shape.jt a b
  | .jf a b => Laws.Shape.jf a b
  | .add a b c => Laws.Shape.add a b c
  | .mult a b c => Laws.Shape.mult a b c
  | .mod a b c => Laws.Shape.mod a b c
  | .and a b c => Laws.Shape.and a b c
  | .or a b c => Laws.Shape.or a b c
  | .not a b => Laws.Shape.not a b
  | .rmem a b => Laws.Shape.rmem a b
  | .wmem a b => Laws.Shape.wmem a b
  | .call a => Laws.Shape.call a
  | .ret => Laws.Shape.ret
  | .out a => Laws.Shape.out a
  | .inp a => Laws.Shape.inp a
  | .noop => Laws.Shape.noop

/-- An instruction that memory holds whole from an address on is what reading enough cells there begins with. -/
theorem State.encode_prefix_cellsFrom {s : State} {i : Instr} {a n : Nat} (hlen : i.length ≤ n)
    (hfit : a + i.length ≤ 32768) (hmem : ∀ k, k < i.length → (encode i)[k]? = some (s.mem.read (a + k))) :
    encode i <+: s.cellsFrom a n := by
  obtain ⟨-, henc, -, -⟩ := instr_shape i
  rw [List.prefix_iff_getElem?]
  intro k hk
  have hk' : k < i.length := henc ▸ hk
  rw [State.getElem?_cellsFrom s a n k (by omega) (by omega), ← hmem k hk', List.getElem?_eq_getElem hk]

/-- The fetch reads at least as many cells as the longest instruction has, so it decodes one that memory holds whole at
the pc, whatever cells follow. -/
theorem State.fetch_of_mem {s : State} {i : Instr} (hwf : i.wellFormed = true) (hfit : s.pc.toNat + i.length ≤ 32768)
    (hmem : ∀ k, k < i.length → (encode i)[k]? = some (s.mem.read (s.pc.toNat + k))) :
    ∃ rest, s.fetch = .ok (i, rest) := by
  obtain ⟨-, -, hlen, -⟩ := instr_shape i
  obtain ⟨rest, hcells⟩ := State.encode_prefix_cellsFrom hlen hfit hmem
  exact ⟨rest, by rw [State.fetch, ← hcells, decodeEncodeRoundTrip i rest hwf]⟩

/-- Settles O7: the fetch is the decoder's reading of the cells at the pc. -/
theorem stepRunsDecodedInstruction : Obligations.StepRunsDecodedInstruction :=
  fun _ _ _ hrun hdec => step_fetched hrun hdec

/-- Settles O8: the fetch gives the instruction that memory holds, by the round trip of its encoding. -/
theorem stepRunsTheInstructionInMemory : Obligations.StepRunsTheInstructionInMemory := by
  intro s i hrun hwf hfit hmem
  obtain ⟨rest, hfetch⟩ := State.fetch_of_mem hwf hfit hmem
  exact step_fetched hrun hfetch

end Sys2Proof.Machine
end

section
/-! The halt and noop family (42_halt_noop.md): the instructions with no operand that touch only the pc and the status
word. -/

namespace Sys2Proof.Machine

/-- `noop` is the one cell 21, whatever cells follow. -/
theorem encodedF0_noop : EncodedF0 21 .noop := fun _ => rfl

/-- `noop` is the bare advance that ends the other instructions (R101). -/
theorem exec_noop (s : State) : exec .noop s = .next (s.advance 1) := rfl

/-- The advance by one cell, read as the update of the one field it makes. -/
theorem State.advance_one (s : State) : s.advance 1 = { s with pc := s.pc + 1 } := rfl

/-- Settles O60: `noop` is an advance by one cell, and the pc is the one field that changes. -/
theorem noopOnlyAdvances : Obligations.NoopOnlyAdvances := by
  refine ⟨encodedF0_noop, fun s => ?_⟩
  rw [exec_noop, State.advance_one]

end Sys2Proof.Machine
end

section
/-! The push family (43_set_push_pop.md): the operand is read on the old state, its value goes on the stack and the pc
advances by two cells. -/

namespace Sys2Proof.Machine

/-- `push` is the cell 2 and one operand cell (R51, R103). -/
theorem encodedF1_push : EncodedF1 2 .push := fun _ _ => rfl

/-- `push` of an operand that classifies is a push of its value followed by the advance. -/
theorem exec_push_of_classify_ok {s : State} {a : Operand} {ka : Resolved} (ha : classify s.policy a = .ok ka) :
    exec (.push a) s = .next ((s.push (s.value ka)).advance 2) :=
  congrArg Host.Outcome.next (State.with1_ok _ ha)

/-- A push and the advance by two cells, read as the update of the two fields they make. -/
theorem State.push_advance_two (s : State) (v : Value) :
    (s.push v).advance 2 = { s with stack := s.stack ++ [v], pc := s.pc + 2 } := rfl

/-- Settles O35: `push` is a push of the operand's value and an advance, and the stack and the pc are the two fields
that change. -/
theorem pushAppends : Obligations.PushAppends := by
  refine ⟨encodedF1_push, fun s a ka ha => ?_⟩
  rw [exec_push_of_classify_ok ha, State.push_advance_two]

end Sys2Proof.Machine
end

section
/-! The compare family (44_compare.md): both sources are read on the old state, and the truth value goes to an ordinary
target. -/

namespace Sys2Proof.Machine

/-- The shared shape of the four-cell result instructions stores the function of the two source values (R75). -/
theorem State.storesResult_binary {s : State} (f : Value → Value → Nat) {a b c : Operand} {ka kb kc : Resolved}
    (ha : classify s.policy a = .ok ka) (hb : classify s.policy b = .ok kb) (hc : classify s.policy c = .ok kc) :
    StoresResult s (s.binary f a b c) ka (f (s.value kb) (s.value kc)) 4 := by
  rw [State.binary_ok ha hb hc]
  exact s.storesResult_write_advance ka _ 4

/-- `eq` is the cell 4 and three operand cells (R51, R105). -/
theorem encodedF3_eq : EncodedF3 4 .eq := fun _ _ _ _ => rfl

/-- `eq` is the shared shape at the test for equality. -/
theorem exec_eq (a b c : Operand) (s : State) : exec (.eq a b c) s = .next (s.binary aluEq a b c) := rfl

/-- The truth value of the test for equality, read on the values themselves (R105). -/
theorem aluEq_eq_ite (x y : Value) : aluEq x y = if x = y then 1 else 0 := by
  simp only [aluEq, truthValue, beq_iff_eq]

/-- Settles O38: `eq` is the shared shape, and what it stores there is the truth value of equality. -/
theorem eqStoresTruth : Obligations.EqStoresTruth := by
  refine ⟨encodedF3_eq, fun s a b c ka kb kc ha hb hc => ⟨_, exec_eq a b c s, ?_⟩⟩
  rw [← aluEq_eq_ite]
  exact State.storesResult_binary aluEq ha hb hc

end Sys2Proof.Machine
end

section
/-! The jump family (45_jumps.md): the operands are read on the old state, and the pc is the one field that changes, to
the value of the target or, where a condition fails, by the default advance. -/

namespace Sys2Proof.Machine

/-- A jump, read as the update of the one field it makes: the pc gets the number of the target's value (R87). -/
theorem State.jump_eq (s : State) (v : Value) : s.jump v = { s with pc := BitVec.ofNat 16 v.toNat } := by
  rw [State.jump, BitVec.ofNat_toNat]

/-- The advance of an instruction of three cells, read as the update of the one field it makes. -/
theorem State.advance_three (s : State) : s.advance 3 = { s with pc := s.pc + 3 } := rfl

/-- A conditional jump changes the pc alone, whichever way its condition falls (R108, R109). -/
theorem State.ite_jump_advance (s : State) (p : Prop) [Decidable p] (v : Value) :
    (if p then s.jump v else s.advance 3) =
      { s with pc := if p then BitVec.ofNat 16 v.toNat else s.pc + 3 } := by
  split
  case isTrue => exact s.jump_eq v
  case isFalse => exact s.advance_three

/-- `jmp` is the cell 6 and one operand cell (R51, R107). -/
theorem encodedF1_jmp : EncodedF1 6 .jmp := fun _ _ => rfl

/-- `jt` is the cell 7 and two operand cells (R51, R108). -/
theorem encodedF2_jt : EncodedF2 7 .jt := fun _ _ _ => rfl

/-- `jf` is the cell 8 and two operand cells (R51, R109). -/
theorem encodedF2_jf : EncodedF2 8 .jf := fun _ _ _ => rfl

/-- `jmp` to an operand that classifies is the jump to its value. -/
theorem exec_jmp_of_classify_ok {s : State} {a : Operand} {ka : Resolved} (ha : classify s.policy a = .ok ka) :
    exec (.jmp a) s = .next (s.jump (s.value ka)) :=
  congrArg Host.Outcome.next (State.with1_ok _ ha)

/-- `jt` on operands that classify jumps if the condition's value is not 0. -/
theorem exec_jt_of_classify_ok {s : State} {a b : Operand} {ka kb : Resolved} (ha : classify s.policy a = .ok ka)
    (hb : classify s.policy b = .ok kb) :
    exec (.jt a b) s = .next (if s.value ka ≠ 0 then s.jump (s.value kb) else s.advance 3) := by
  simp only [← conditionHolds_iff]
  exact congrArg Host.Outcome.next (State.with2_ok _ ha hb)

/-- `jf` on operands that classify jumps if the condition's value is 0; the model tests the opposite condition, so the
branches are exchanged. -/
theorem exec_jf_of_classify_ok {s : State} {a b : Operand} {ka kb : Resolved} (ha : classify s.policy a = .ok ka)
    (hb : classify s.policy b = .ok kb) :
    exec (.jf a b) s = .next (if s.value ka = 0 then s.jump (s.value kb) else s.advance 3) := by
  rw [← ite_not]
  simp only [← ne_eq, ← conditionHolds_iff]
  exact congrArg Host.Outcome.next (State.with2_ok _ ha hb)

/-- Settles O40: `jmp` is the jump to the operand's value, and the pc is the one field that changes. -/
theorem jmpLoadsPc : Obligations.JmpLoadsPc := by
  refine ⟨encodedF1_jmp, fun s a ka ha => ?_⟩
  rw [exec_jmp_of_classify_ok ha, State.jump_eq]

/-- Settles O41: `jt` is a conditional jump on a value that is not 0. -/
theorem jtJumpsIfNonZero : Obligations.JtJumpsIfNonZero := by
  refine ⟨encodedF2_jt, fun s a b ka kb ha hb => ?_⟩
  rw [exec_jt_of_classify_ok ha hb, State.ite_jump_advance]

/-- Settles O42: `jf` is a conditional jump on the value 0. -/
theorem jfJumpsIfZero : Obligations.JfJumpsIfZero := by
  refine ⟨encodedF2_jf, fun s a b ka kb ha hb => ?_⟩
  rw [exec_jf_of_classify_ok ha hb, State.ite_jump_advance]

end Sys2Proof.Machine
end

section
/-! The arithmetic and logic family (46_arith_logic.md): `add`, `mult`, `and` and `or` are the shared four-cell shape,
each at its own function of the two source values. -/

namespace Sys2Proof.Machine

/-- A result is stored modulo 32768 anyway, so reducing it first makes no difference (R73, R116). -/
theorem storesResult_mod (s t : State) (k : Resolved) (v len : Nat) :
    StoresResult s t k (v % 32768) len ↔ StoresResult s t k v len := by
  simp only [StoresResult, Nat.mod_mod]

/-! #### How the instructions are encoded (R51) -/

/-- `add` is the cell 9 and three operand cells (R110). -/
theorem encodedF3_add : EncodedF3 9 .add := fun _ _ _ _ => rfl

/-- `mult` is the cell 10 and three operand cells (R111). -/
theorem encodedF3_mult : EncodedF3 10 .mult := fun _ _ _ _ => rfl

/-- `and` is the cell 12 and three operand cells (R113). -/
theorem encodedF3_and : EncodedF3 12 .and := fun _ _ _ _ => rfl

/-- `or` is the cell 13 and three operand cells (R114). -/
theorem encodedF3_or : EncodedF3 13 .or := fun _ _ _ _ => rfl

/-! #### What they do -/

/-- `add` is the shared shape at the sum. -/
theorem exec_add (a b c : Operand) (s : State) : exec (.add a b c) s = .next (s.binary aluAdd a b c) := rfl

/-- `mult` is the shared shape at the product. -/
theorem exec_mult (a b c : Operand) (s : State) : exec (.mult a b c) s = .next (s.binary aluMult a b c) := rfl

/-- `and` is the shared shape at the bitwise conjunction. -/
theorem exec_and (a b c : Operand) (s : State) : exec (.and a b c) s = .next (s.binary aluAnd a b c) := rfl

/-- `or` is the shared shape at the bitwise disjunction. -/
theorem exec_or (a b c : Operand) (s : State) : exec (.or a b c) s = .next (s.binary aluOr a b c) := rfl

/-- Settles O43: the shared shape stores the sum as the ALU reduces it, and the reduction is that of the write. -/
theorem addStoresSum : Obligations.AddStoresSum := by
  refine ⟨encodedF3_add, fun s a b c ka kb kc ha hb hc => ⟨_, exec_add a b c s, ?_⟩⟩
  rw [← storesResult_mod]
  exact State.storesResult_binary aluAdd ha hb hc

/-- Settles O44: the shared shape stores the product as the ALU reduces it, and the reduction is that of the write. -/
theorem multStoresProduct : Obligations.MultStoresProduct := by
  refine ⟨encodedF3_mult, fun s a b c ka kb kc ha hb hc => ⟨_, exec_mult a b c s, ?_⟩⟩
  rw [← storesResult_mod]
  exact State.storesResult_binary aluMult ha hb hc

/-- Settles O47: the stored value is the conjunction of the two words, whose bits are those of both. -/
theorem andStoresCommonBits : Obligations.AndStoresCommonBits := by
  refine ⟨encodedF3_and, fun s a b c ka kb kc ha hb hc =>
    ⟨_, s.value kb &&& s.value kc, exec_and a b c s, ?stores, fun n _ => ?bits⟩⟩
  case stores => exact State.storesResult_binary aluAnd ha hb hc
  case bits => exact BitVec.getLsbD_and

/-- Settles O48: the stored value is the disjunction of the two words, whose bits are those of either. -/
theorem orStoresEitherBits : Obligations.OrStoresEitherBits := by
  refine ⟨encodedF3_or, fun s a b c ka kb kc ha hb hc =>
    ⟨_, s.value kb ||| s.value kc, exec_or a b c s, ?stores, fun n _ => ?bits⟩⟩
  case stores => exact State.storesResult_binary aluOr ha hb hc
  case bits => exact BitVec.getLsbD_or

end Sys2Proof.Machine
end

section
/-! The memory access family (47_rmem_wmem.md): `wmem` stores at the address its first operand denotes, whatever the
class of that operand. -/

namespace Sys2Proof.Machine

/-- A store of a value is the write of its number to the memory target; the reduction of a write keeps a value (R73). -/
theorem State.memWrite_eq_write (s : State) (a v : Value) : s.memWrite a v = s.write (target (.lit a)) v.toNat := by
  rw [target_lit, State.write_mem, Nat.mod_eq_of_lt v.isLt, BitVec.ofNat_toNat, BitVec.setWidth_eq]

/-- `wmem` is the cell 16 and two operand cells (R51, R119). -/
theorem encodedF2_wmem : EncodedF2 16 .wmem := fun _ _ _ => rfl

/-- `wmem` on operands that classify is a store at the value of the first, followed by the advance (R119). -/
theorem exec_wmem_of_classify_ok {s : State} {a b : Operand} {ka kb : Resolved} (ha : classify s.policy a = .ok ka)
    (hb : classify s.policy b = .ok kb) :
    exec (.wmem a b) s = .next ((s.memWrite (s.value ka) (s.value kb)).advance 3) :=
  congrArg Host.Outcome.next (State.with2_ok _ ha hb)

/-- Settles O51: the store is the write of a result to the literal target that the value of the first operand gives. -/
theorem wmemStoresTheValue : Obligations.WmemStoresTheValue := by
  refine ⟨encodedF2_wmem, fun s a b ka kb ha hb => ⟨_, exec_wmem_of_classify_ok ha hb, ?_⟩⟩
  rw [State.memWrite_eq_write]
  exact s.storesResult_write_advance (.lit (s.value ka)) _ 3

end Sys2Proof.Machine
end

section
/-! The operand check (41_execution_loop.md R84): the first out-of-range operand halts the instruction under
`reject`. -/

namespace Sys2Proof.Machine

/-- `t` is what the check of the operands `os`, which start at position `p`, has to answer under `reject` if one of them
is out of range: the halt with the position and the cell of the first such operand. -/
def State.HaltsAtFirstOutOfRange (s : State) (p : Nat) (os : List Operand) (t : State) : Prop :=
  ∀ before c after, os = before ++ .outOfRange c :: after → (∀ d, .outOfRange d ∉ before) →
    t = s.haltWith .outOfRangeOperand (operandInfo (p + before.length) c)

/-- With no operand there is nothing to reject. -/
theorem State.haltsAtFirstOutOfRange_nil {s t : State} {p : Nat} : s.HaltsAtFirstOutOfRange p [] t := by
  intro before c after h
  simp at h

/-- The check of one more operand: it halts on that operand, or that operand is in range and the rest is checked. -/
theorem State.haltsAtFirstOutOfRange_withOperand {s : State} {p : Nat} {o : Operand} {os : List Operand}
    {k : Resolved → State} (hpol : s.policy = .reject) (hk : ∀ r, s.HaltsAtFirstOutOfRange (p + 1) os (k r)) :
    s.HaltsAtFirstOutOfRange p (o :: os) (s.withOperand p o k) := by
  intro before c after hos hbefore
  cases before with
  | nil =>
    obtain ⟨rfl, -⟩ := List.cons.inj hos
    exact State.withOperand_error k (by rw [hpol, classify_reject])
  | cons x xs =>
    obtain ⟨rfl, htail⟩ := List.cons.inj hos
    cases hclass : classify s.policy o with
    | error d =>
      obtain ⟨-, rfl⟩ := classify_error hclass
      exact absurd List.mem_cons_self (hbefore d)
    | ok r =>
      rw [State.withOperand_ok k hclass, List.length_cons, Nat.add_comm xs.length, ← Nat.add_assoc]
      exact hk r xs c after htail fun d hd => hbefore d (List.mem_cons_of_mem o hd)

variable {s : State} (hpol : s.policy = .reject)
include hpol

theorem State.haltsAtFirstOutOfRange_with1 (a : Operand) (k : Resolved → State) :
    s.HaltsAtFirstOutOfRange 1 [a] (s.with1 a k) :=
  haltsAtFirstOutOfRange_withOperand hpol fun _ => haltsAtFirstOutOfRange_nil

theorem State.haltsAtFirstOutOfRange_with2 (a b : Operand) (k : Resolved → Resolved → State) :
    s.HaltsAtFirstOutOfRange 1 [a, b] (s.with2 a b k) :=
  haltsAtFirstOutOfRange_withOperand hpol fun _ => haltsAtFirstOutOfRange_withOperand hpol fun _ =>
    haltsAtFirstOutOfRange_nil

theorem State.haltsAtFirstOutOfRange_with3 (a b c : Operand) (k : Resolved → Resolved → Resolved → State) :
    s.HaltsAtFirstOutOfRange 1 [a, b, c] (s.with3 a b c k) :=
  haltsAtFirstOutOfRange_withOperand hpol fun _ => haltsAtFirstOutOfRange_withOperand hpol fun _ =>
    haltsAtFirstOutOfRange_withOperand hpol fun _ => haltsAtFirstOutOfRange_nil

/-- Every instruction checks its operands first, in the order of its cells. -/
theorem exec_haltsAtFirstOutOfRange (i : Instr) :
    ∃ t, exec i s = .next t ∧ s.HaltsAtFirstOutOfRange 1 i.operands t := by
  cases i with
  | halt | ret | noop => exact ⟨_, rfl, State.haltsAtFirstOutOfRange_nil⟩
  | push | pop | jmp | call | out | inp => exact ⟨_, rfl, State.haltsAtFirstOutOfRange_with1 hpol _ _⟩
  | set | jt | jf | not | rmem | wmem => exact ⟨_, rfl, State.haltsAtFirstOutOfRange_with2 hpol _ _ _⟩
  | eq | gt | add | mult | mod | and | or => exact ⟨_, rfl, State.haltsAtFirstOutOfRange_with3 hpol _ _ _ _⟩

end Sys2Proof.Machine
end

section
/-! The first out-of-range operand of an instruction, and the statement about it. -/

namespace Sys2Proof.Machine

/-- A list with an out-of-range operand has a first one. -/
theorem exists_first_outOfRange {os : List Operand} {c : Cell} (hc : .outOfRange c ∈ os) :
    ∃ before d after, os = before ++ .outOfRange d :: after ∧ ∀ e, .outOfRange e ∉ before := by
  induction os with
  | nil => cases hc
  | cons o os ih =>
    by_cases ho : ∃ d, o = .outOfRange d
    · obtain ⟨d, rfl⟩ := ho
      exact ⟨[], d, os, rfl, fun _ => List.not_mem_nil⟩
    · obtain hco | hcos := List.mem_cons.mp hc
      · exact absurd ⟨c, hco.symm⟩ ho
      · obtain ⟨before, d, after, rfl, hbefore⟩ := ih hcos
        refine ⟨o :: before, d, after, rfl, fun e he => ?_⟩
        obtain heo | heb := List.mem_cons.mp he
        · exact ho ⟨e, heo.symm⟩
        · exact hbefore e heb

/-- Settles O6: the operands are checked one by one, so the check halts on the first that is out of range. -/
theorem outOfRangeOperandHalts : Obligations.OutOfRangeOperandHalts := by
  intro i s before after c hpol hops hbefore
  obtain ⟨t, hexec, ht⟩ := exec_haltsAtFirstOutOfRange hpol i
  refine ⟨t, hexec, ?_⟩
  rw [ht before c after hops hbefore, Nat.add_comm]
  rfl

end Sys2Proof.Machine
end

section
/-! The step that finds no instruction (41_execution_loop.md R81 to R83): the fetch of each of the three cases, and the
halt it leads to. -/

namespace Sys2Proof.Machine

/-- An opcode cell above 21 has no operand count (30_encoding.md R57). -/
theorem operandCount_of_illegal {op : Cell} (h : 21 < op.toNat) : operandCount op = none := by
  unfold operandCount
  split
  case h_23 => rfl
  all_goals omega

/-- S1: the pc is off memory. -/
theorem State.fetch_of_pc_beyond {s : State} (hpc : 32767 < s.pc.toNat) : s.fetch = .error .noCell := by
  obtain ⟨-, hf⟩ | ⟨hle, -⟩ | ⟨n, hle, -⟩ | ⟨n, i, rest, -, hle, -⟩ := s.fetch_cases
  · exact hf
  all_goals omega

/-- S2: the opcode cell is none of the map's. -/
theorem State.fetch_of_illegal_opcode {s : State} (hpc : s.pc.toNat ≤ 32767)
    (hop : 21 < (s.mem.read s.pc.toNat).toNat) : s.fetch = .error (.illegalOpcode (s.mem.read s.pc.toNat)) := by
  have hnone := operandCount_of_illegal hop
  obtain ⟨hgt, -⟩ | ⟨-, -, hf⟩ | ⟨n, -, hn, -⟩ | ⟨n, i, rest, hn, -⟩ := s.fetch_cases
  · omega
  · exact hf
  all_goals cases hnone.symm.trans hn

/-- S3: an operand cell is off memory. -/
theorem State.fetch_of_missing_operand {s : State} {n : Nat} (hpc : s.pc.toNat ≤ 32767)
    (hn : operandCount (s.mem.read s.pc.toNat) = some n) (hmiss : 32767 < s.pc.toNat + n) :
    s.fetch = .error (.missingOperand (s.mem.read s.pc.toNat)) := by
  obtain ⟨hgt, -⟩ | ⟨-, hop, -⟩ | ⟨m, -, -, -, hf⟩ | ⟨m, i, rest, hm, hfit, -⟩ := s.fetch_cases
  · omega
  · cases (operandCount_of_illegal hop).symm.trans hn
  · exact hf
  · cases hm.symm.trans hn
    omega

/-- Settles O9: the fetch finds no cell, and the halt has the pc as its detail word. -/
theorem stepPcBeyondMemoryHalts : Obligations.StepPcBeyondMemoryHalts := by
  intro s hrun hpc
  refine ⟨_, step_unfetched hrun (State.fetch_of_pc_beyond hpc), ?_⟩
  rw [HaltsWith, ← pcInfo_eq]
  rfl

/-- Settles O10: the fetch finds an illegal opcode, and the halt has its cell as the detail word. -/
theorem stepIllegalOpcodeHalts : Obligations.StepIllegalOpcodeHalts := by
  intro s hrun hpc hop
  refine ⟨_, step_unfetched hrun (State.fetch_of_illegal_opcode hpc hop), ?_⟩
  rw [HaltsWith, ← cellInfo_eq]
  rfl

/-- Settles O11: the fetch misses an operand cell, and the halt has the pc as its detail word. -/
theorem stepMissingOperandCellHalts : Obligations.StepMissingOperandCellHalts := by
  intro s n hrun hpc hn hmiss
  refine ⟨_, step_unfetched hrun (State.fetch_of_missing_operand hpc hn hmiss), ?_⟩
  rw [HaltsWith, ← pcInfo_eq]
  rfl

end Sys2Proof.Machine
end

section
/-! How a running machine halts (41_execution_loop.md R88): the nine rows, and that a step keeps the status word or
halts in one of them. -/

namespace Sys2Proof.Machine

/-- The rows of R88 with the cause and the detail word of each (60_exceptions.md R151): `HaltRow s c info` where a step
of the running machine `s` is to halt with `c` and `info`. -/
inductive HaltRow (s : State) : Cause → Info → Prop
  | pcBeyond (hpc : 32767 < s.pc.toNat) : HaltRow s .pcOutOfRange (pcInfo s.pc)
  | illegalOpcode (hpc : s.pc.toNat ≤ 32767) (hop : 21 < (s.mem.read s.pc.toNat).toNat) :
      HaltRow s .invalidOpcode (cellInfo (s.mem.read s.pc.toNat))
  | missingOperand {n} (hpc : s.pc.toNat ≤ 32767) (hn : operandCount (s.mem.read s.pc.toNat) = some n)
      (hmiss : 32767 < s.pc.toNat + n) : HaltRow s .pcOutOfRange (pcInfo s.pc)
  | outOfRangeOperand {i rest p c} (hf : s.fetch = .ok (i, rest)) (hpol : s.policy = .reject) (hp : p < 3)
      (hc : i.operands[p]? = some (.outOfRange c)) : HaltRow s .outOfRangeOperand (operandInfo (p + 1) c)
  | halt {rest} (hf : s.fetch = .ok (.halt, rest)) : HaltRow s .haltInstr 0
  | retEmpty {rest} (hf : s.fetch = .ok (.ret, rest)) (hs : s.stack = []) : HaltRow s .retEmpty 0
  | popEmpty {a rest} (hf : s.fetch = .ok (.pop a, rest)) (hs : s.stack = []) : HaltRow s .stackUnderflow 0
  | setNoRegister {a b n rest} (hf : s.fetch = .ok (.set a b, rest)) (ha : classify s.policy a = .ok (.lit n)) :
      HaltRow s .invalidWriteTarget (cellInfo a.cell)
  | modZero {a b c k rest} (hf : s.fetch = .ok (.mod a b c, rest)) (hc : classify s.policy c = .ok k)
      (h0 : s.value k = 0) : HaltRow s .divisionByZero 0

/-- The halted state of a row: the pc stays at the instruction, but for `halt`, which advances it (R159, the spec's D9
and D10). -/
def State.haltedWith (s : State) (c : Cause) (info : Info) : State :=
  if c = .haltInstr then (s.advance 1).haltWith c info else s.haltWith c info

variable (s : State) (c : Cause) (info : Info)

theorem State.haltedWith_of_ne {c : Cause} (h : c ≠ .haltInstr) : s.haltedWith c info = s.haltWith c info :=
  if_neg h

@[simp] theorem State.haltedWith_run : (s.haltedWith c info).run = .halted := by
  unfold State.haltedWith; split <;> rfl

@[simp] theorem State.haltedWith_cause : (s.haltedWith c info).cause = c := by
  unfold State.haltedWith; split <;> rfl

@[simp] theorem State.haltedWith_info : (s.haltedWith c info).info = info := by
  unfold State.haltedWith; split <;> rfl

end Sys2Proof.Machine
end

section
/-! The rows are the ways a step halts. -/

namespace Sys2Proof.Machine

variable {s t : State}

/-- The halt of a rejected operand is a halt, everything but the status word as before. -/
theorem State.RejectedHalt.eq_haltWith {os : List Operand} (h : s.RejectedHalt t os) :
    ∃ c info, t = s.haltWith c info := by
  obtain ⟨_, _, _, _, _, _, heq⟩ := h
  exact ⟨_, _, heq⟩

theorem State.RejectedHalt.run_eq {os : List Operand} (h : s.RejectedHalt t os) : t.run = .halted := by
  obtain ⟨_, _, rfl⟩ := h.eq_haltWith
  rfl

/-- A fetch that finds no instruction halts in one of the first three rows. -/
theorem HaltRow.of_fetch_error {e : DecodeError} (hf : s.fetch = .error e) :
    ∃ c info, HaltRow s c info ∧ s.fetchHalt e = s.haltedWith c info := by
  obtain ⟨hpc, hf'⟩ | ⟨hpc, hop, hf'⟩ | ⟨n, hpc, hn, hmiss, hf'⟩ | ⟨n, i, rest, -, -, -, -, hf'⟩ := s.fetch_cases
  all_goals cases hf.symm.trans hf'
  · exact ⟨_, _, .pcBeyond hpc, rfl⟩
  · exact ⟨_, _, .illegalOpcode hpc hop, rfl⟩
  · exact ⟨_, _, .missingOperand hpc hn hmiss, rfl⟩

/-- A fetched instruction keeps the status word or halts in one of the last six rows. -/
theorem Effect.status_eq_or_haltRow {i : Instr} {rest : List Cell} (hf : s.fetch = .ok (i, rest))
    (h : Effect s i t) : t.status = s.status ∨ ∃ c info, HaltRow s c info ∧ t = s.haltedWith c info := by
  cases h with
  | rejected h =>
    obtain ⟨p, c, hp1, hp3, hpol, hc, rfl⟩ := h
    refine .inr ⟨_, _, .outOfRangeOperand hf hpol (p := p - 1) (by omega) hc, ?_⟩
    rw [Nat.sub_add_cancel hp1]
    rfl
  | halt => exact .inr ⟨_, _, .halt hf, rfl⟩
  | setNoRegister ha => exact .inr ⟨_, _, .setNoRegister hf ha, rfl⟩
  | popEmpty _ hs => exact .inr ⟨_, _, .popEmpty hf hs, rfl⟩
  | modZero _ _ hc h0 => exact .inr ⟨_, _, .modZero hf hc h0, rfl⟩
  | retEmpty hs => exact .inr ⟨_, _, .retEmpty hf hs, rfl⟩
  | result | popped | received => exact .inl (by simp [State.status])
  | _ => exact .inl rfl

/-- An out-of-range operand among those of a fetched instruction is one of its first three. -/
theorem HaltRow.of_outOfRange_mem {i : Instr} {rest : List Cell} {c : Cell} (hf : s.fetch = .ok (i, rest))
    (hpol : s.policy = .reject) (hc : .outOfRange c ∈ i.operands) : ∃ c info, HaltRow s c info := by
  obtain ⟨p, hp⟩ := List.getElem?_of_mem hc
  obtain ⟨hlt, -⟩ := List.getElem?_eq_some_iff.mp hp
  obtain ⟨-, -, hlen, -⟩ := instr_shape i
  rw [Instr.length] at hlen
  exact ⟨_, _, .outOfRangeOperand hf hpol (by omega) hp⟩

/-- A step of a running machine keeps the status word or halts in one of the nine rows. -/
theorem step_status_eq_or_haltRow (hrun : s.run = .running) (h : step s = .next t) :
    t.status = s.status ∨ ∃ c info, HaltRow s c info ∧ t = s.haltedWith c info := by
  obtain ⟨hhalted, -⟩ | ⟨-, e, hf, rfl⟩ | ⟨-, i, rest, hf, -, heff⟩ := step_inv h
  · cases hrun.symm.trans hhalted
  · exact .inr (HaltRow.of_fetch_error hf)
  · exact heff.status_eq_or_haltRow hf

/-- In each of the nine rows the step of a running machine halts, whichever check of the instruction does it. -/
theorem HaltRow.run_step {c : Cause} {info : Info} (h : HaltRow s c info) (hrun : s.run = .running) :
    ∃ t, step s = .next t ∧ t.run = .halted := by
  cases h with
  | pcBeyond hpc =>
    obtain ⟨t, hstep, rfl⟩ := stepPcBeyondMemoryHalts s hrun hpc
    exact ⟨_, hstep, rfl⟩
  | illegalOpcode hpc hop =>
    obtain ⟨t, hstep, rfl⟩ := stepIllegalOpcodeHalts s hrun hpc hop
    exact ⟨_, hstep, rfl⟩
  | missingOperand hpc hn hmiss =>
    obtain ⟨t, hstep, rfl⟩ := stepMissingOperandCellHalts s _ hrun hpc hn hmiss
    exact ⟨_, hstep, rfl⟩
  | @outOfRangeOperand i _ _ _ hf hpol _ hc =>
    obtain ⟨before, d, after, hops, hbefore⟩ := exists_first_outOfRange (List.mem_of_getElem? hc)
    obtain ⟨t, hexec, rfl⟩ := outOfRangeOperandHalts i s before after d hpol hops hbefore
    exact ⟨_, (step_fetched hrun hf).trans hexec, rfl⟩
  | halt hf => exact ⟨_, step_fetched hrun hf, rfl⟩
  | retEmpty hf hs =>
    refine ⟨_, step_fetched hrun hf, ?_⟩
    rw [State.pop?_none hs]
    rfl
  | @popEmpty a _ hf hs =>
    refine ⟨_, step_fetched hrun hf, ?_⟩
    obtain hrej | ⟨ka, -, h⟩ := s.with1_cases a _
    · exact hrej.run_eq
    · rw [h, State.pop?_none hs]
      rfl
  | @setNoRegister a b _ _ hf ha =>
    refine ⟨_, step_fetched hrun hf, ?_⟩
    obtain hrej | ⟨ka, kb, ha', -, h⟩ := s.with2_cases a b _
    · exact hrej.run_eq
    · cases ha.symm.trans ha'
      rw [h]
      rfl
  | @modZero a b c _ _ hf hc h0 =>
    refine ⟨_, step_fetched hrun hf, ?_⟩
    obtain hrej | ⟨ka, kb, kc, -, -, hc', h⟩ := s.with3_cases a b c _
    · exact hrej.run_eq
    · cases hc.symm.trans hc'
      rw [h, if_pos h0]
      rfl

/-- A running machine that a step halts is in one of the rows, with that row's cause and detail word. -/
theorem haltRow_of_step (hrun : s.run = .running) (h : step s = .next t) (ht : t.run = .halted) :
    HaltRow s t.cause t.info ∧ t = s.haltedWith t.cause t.info := by
  obtain hstatus | ⟨c, info, hrow, rfl⟩ := step_status_eq_or_haltRow hrun h
  · cases hrun.symm.trans ((congrArg Prod.fst hstatus).symm.trans ht)
  · rw [State.haltedWith_cause, State.haltedWith_info]
    exact ⟨hrow, rfl⟩

/-- `HALT_INSTR` is the cause of one row alone, whose detail word is 0. -/
theorem HaltRow.info_of_haltInstr {info : Info} (h : HaltRow s .haltInstr info) : info = 0 := by
  cases h
  rfl

/-- Settles O13: `step_cases` gives the next state, which keeps the status word or is that of a halt. -/
theorem stepAlwaysAnswersNext : Obligations.StepAlwaysAnswersNext := by
  intro s
  have hnext : ∃ t, step s = .next t := by
    obtain ⟨-, h⟩ | ⟨-, e, -, h⟩ | ⟨-, i, rest, t, -, h, -⟩ := step_cases s
    all_goals exact ⟨_, h⟩
  obtain ⟨t, hstep⟩ := hnext
  refine ⟨t, hstep, fun hrun => ?running, fun hhalted => ?halted⟩
  case running =>
    obtain hstatus | ⟨c, info, -, rfl⟩ := step_status_eq_or_haltRow hrun hstep
    · simp only [State.status, Prod.mk.injEq, hrun] at hstatus
      exact .inr hstatus
    · exact .inl (State.haltedWith_run ..)
  case halted => cases hstep.symm.trans (step_halted hhalted); rfl

/-- Settles O14: the halted state of a row is the state before with its status word, and `halt` is the one row that
advances the pc. -/
theorem haltsArePrecise : Obligations.HaltsArePrecise := by
  intro s t hrun hstep ht
  obtain ⟨hrow, heq⟩ := haltRow_of_step hrun hstep ht
  by_cases hc : t.cause = .haltInstr
  · rw [hc] at hrow heq
    rw [hrow.info_of_haltInstr] at heq
    exact .inl ⟨hc, heq⟩
  · rw [State.haltedWith_of_ne s t.info hc] at heq
    exact .inr ⟨hc, heq⟩

/-- Settles O15: the listed cases are the nine rows. -/
theorem haltsExactlyInTheListedCases : Obligations.HaltsExactlyInTheListedCases := by
  intro s t hrun hstep
  refine ⟨fun ht => ?listed, fun hlisted => ?halted⟩
  case listed =>
    obtain ⟨hrow, -⟩ := haltRow_of_step hrun hstep ht
    generalize t.cause = c, t.info = info at hrow ⊢
    cases hrow with
    | pcBeyond hpc => exact .inl ⟨rfl, hpc⟩
    | illegalOpcode hpc hop => exact .inr (.inl ⟨rfl, hpc, hop⟩)
    | missingOperand hpc hn hmiss => exact .inr (.inr (.inl ⟨rfl, hpc, _, hn, hmiss⟩))
    | outOfRangeOperand hf hpol _ hc =>
      exact .inr (.inr (.inr ⟨_, _, hf, .inl ⟨rfl, hpol, _, List.mem_of_getElem? hc⟩⟩))
    | halt hf => exact .inr (.inr (.inr ⟨_, _, hf, .inr (.inl ⟨rfl, rfl⟩)⟩))
    | retEmpty hf hs => exact .inr (.inr (.inr ⟨_, _, hf, .inr (.inr (.inl ⟨rfl, rfl, hs⟩))⟩))
    | popEmpty hf hs => exact .inr (.inr (.inr ⟨_, _, hf, .inr (.inr (.inr (.inl ⟨rfl, ⟨_, rfl⟩, hs⟩)))⟩))
    | setNoRegister hf ha =>
      exact .inr (.inr (.inr ⟨_, _, hf, .inr (.inr (.inr (.inr (.inl ⟨rfl, _, _, _, rfl, ha⟩))))⟩))
    | modZero hf hc h0 =>
      exact .inr (.inr (.inr ⟨_, _, hf, .inr (.inr (.inr (.inr (.inr ⟨rfl, _, _, _, _, rfl, hc, h0⟩))))⟩))
  case halted =>
    have hrow : ∃ c info, HaltRow s c info := by
      obtain ⟨-, hpc⟩ | ⟨-, hpc, hop⟩ | ⟨-, hpc, n, hn, hmiss⟩ | ⟨i, rest, hf, hcase⟩ := hlisted
      · exact ⟨_, _, .pcBeyond hpc⟩
      · exact ⟨_, _, .illegalOpcode hpc hop⟩
      · exact ⟨_, _, .missingOperand hpc hn hmiss⟩
      · obtain ⟨-, hpol, c, hc⟩ | ⟨-, rfl⟩ | ⟨-, rfl, hs⟩ | ⟨-, ⟨a, rfl⟩, hs⟩ | ⟨-, a, b, n, rfl, ha⟩ |
          ⟨-, a, b, c, k, rfl, hc, h0⟩ := hcase
        · exact HaltRow.of_outOfRange_mem hf hpol hc
        · exact ⟨_, _, .halt hf⟩
        · exact ⟨_, _, .retEmpty hf hs⟩
        · exact ⟨_, _, .popEmpty hf hs⟩
        · exact ⟨_, _, .setNoRegister hf ha⟩
        · exact ⟨_, _, .modZero hf hc h0⟩
    obtain ⟨c, info, hrow⟩ := hrow
    obtain ⟨u, hu, hhalted⟩ := hrow.run_step hrun
    cases hstep.symm.trans hu
    exact hhalted

end Sys2Proof.Machine
end

section
/-! The invariant of the machine: memory canonical (`State.wf_write` and its like), the pc inside or just beyond memory,
the status word one of R151's rows. One lemma for each part says that a step keeps it. -/

namespace Sys2Proof.Machine

variable {s t : State}

/-- The store of at most one value keeps memory canonical. -/
theorem Memory.StoresAtMostOneValue.wf {m m' : Memory} (h : m.StoresAtMostOneValue m') (hwf : m.wf = true) :
    m'.wf = true := by
  obtain rfl | ⟨a, v, rfl⟩ := h
  · exact hwf
  · exact Memory.wf_write _ a.isLt hwf

/-- The pc after an instruction: advanced by its length, as it was, or a value loaded by the jump family. -/
theorem Effect.pc_cases {i : Instr} (h : Effect s i t) :
    t.pc = s.pc + BitVec.ofNat 16 i.length ∨ (t.pc = s.pc ∧ (t.run = .halted ∨ t = s ∧ ∃ a, i = .inp a)) ∨
      (setsPc i = true ∧ ∃ v : Value, t.pc = v.setWidth 16) := by
  cases h with
  | rejected h =>
    obtain ⟨_, _, rfl⟩ := h.eq_haltWith
    exact .inr (.inl ⟨rfl, .inl rfl⟩)
  | setNoRegister | popEmpty | modZero | retEmpty => exact .inr (.inl ⟨rfl, .inl rfl⟩)
  | waits => exact .inr (.inl ⟨rfl, .inr ⟨rfl, _, rfl⟩⟩)
  | result | popped | received => exact .inl (by simp [Instr.length, Instr.operands])
  | halt | stored | noop | pushed | emitted => exact .inl rfl
  | fellThrough hi => obtain ⟨a, b, rfl⟩ | ⟨a, b, rfl⟩ := hi <;> exact .inl rfl
  | jumped hi => obtain ⟨a, rfl⟩ | ⟨a, b, rfl⟩ | ⟨a, b, rfl⟩ := hi <;> exact .inr (.inr ⟨rfl, _, rfl⟩)
  | called | returned => exact .inr (.inr ⟨rfl, _, rfl⟩)

/-- A value loaded into the pc is at most 32767 (R87). -/
theorem toNat_setWidth_le (v : Value) : (v.setWidth 16).toNat ≤ 32767 := by
  rw [BitVec.toNat_setWidth_of_le (by decide)]
  exact Nat.le_of_lt_succ v.isLt

/-- The pc passes the last cell by one at most: a fetched instruction lies inside memory, and a jump stays there
(10_state.md R12, 90_conflicts.md C9). -/
theorem step_pc_le (h : step s = .next t) (hpc : s.pc.toNat ≤ 32768) : t.pc.toNat ≤ 32768 := by
  obtain ⟨-, rfl⟩ | ⟨-, e, -, rfl⟩ | ⟨-, i, rest, hf, -, heff⟩ := step_inv h
  · exact hpc
  · obtain ⟨c, info, hhalt⟩ := fetchHalt_eq s e
    rwa [hhalt, State.haltWith_pc]
  · obtain ⟨-, hfit⟩ := State.fetch_ok hf
    obtain hadv | ⟨hkept, -⟩ | ⟨-, v, hv⟩ := heff.pc_cases
    · rw [hadv, BitVec.toNat_add, BitVec.toNat_ofNat]
      omega
    · rwa [hkept]
    · rw [hv]
      exact (toNat_setWidth_le v).trans (by decide)

/-- While RUNNING the status word is in order exactly when it is NONE and 0 (60_exceptions.md R151). -/
theorem State.statusOk_of_running (hrun : s.run = .running) :
    s.statusOk = true ↔ s.cause = .none ∧ s.info = 0 := by
  unfold State.statusOk
  cases s.cause <;> simp [hrun]

/-- The detail word of a raw cell is that cell. -/
theorem toNat_cellInfo (c : Cell) : (cellInfo c).toNat = c.toNat :=
  BitVec.toNat_setWidth_of_le (by decide)

/-- The cell of a well-formed operand that denotes a literal is no register reference (30_encoding.md R53). -/
theorem cell_of_classify_lit {p : OperandPolicy} {o : Operand} {n : Value} (hwf : o.wellFormed = true)
    (h : classify p o = .ok (.lit n)) : o.cell.toNat < 32768 ∨ 32775 < o.cell.toNat := by
  cases o with
  | lit m => exact .inl (Nat.lt_succ_of_le (toNat_setWidth_le m))
  | reg i => simp at h
  | outOfRange c => exact .inr (of_decide_eq_true hwf)

/-- The status word of every row is in order. -/
theorem HaltRow.statusOk {c : Cause} {info : Info} (h : HaltRow s c info) : (s.haltedWith c info).statusOk = true := by
  cases h with
  | pcBeyond hpc =>
    have hlow : 32765 ≤ s.pc.toNat := by omega
    simp [State.haltedWith, State.statusOk, hlow]
  | missingOperand hpc hn hmiss =>
    have hlow : 32765 ≤ s.pc.toNat := by
      have := operandCount_le hn
      omega
    simp [State.haltedWith, State.statusOk, hlow]
  | illegalOpcode hpc hop =>
    have hlt := (s.mem.read s.pc.toNat).isLt
    simp [State.haltedWith, State.statusOk, toNat_cellInfo, hop, hlt]
  | @outOfRangeOperand i rest p d hf hpol hp hd =>
    have hrange : 32775 < d.toNat := by
      obtain ⟨hwf, -⟩ := State.fetch_ok hf
      exact of_decide_eq_true (List.all_eq_true.mp hwf _ (List.mem_of_getElem? hd))
    have hpos : ((p + 1) * 65536 + d.toNat) / 65536 = p + 1 := by omega
    have hcell : ((p + 1) * 65536 + d.toNat) % 65536 = d.toNat := by omega
    simp [State.haltedWith, State.statusOk, toNat_operandInfo (p := p + 1) hp, hpol, hpos, hcell, hrange, hp]
  | @setNoRegister a b n rest hf ha =>
    have hcell : a.cell.toNat < 32768 ∨ 32775 < a.cell.toNat := by
      obtain ⟨hwf, -⟩ := State.fetch_ok hf
      exact cell_of_classify_lit (List.all_eq_true.mp hwf a List.mem_cons_self) ha
    have hlt := a.cell.isLt
    simp [State.haltedWith, State.statusOk, toNat_cellInfo, hcell, hlt]
  | halt | retEmpty | popEmpty | modZero => rfl

/-- The status word stays in order: it is kept, or it is that of a row. -/
theorem step_statusOk (h : step s = .next t) (hok : s.statusOk = true) : t.statusOk = true := by
  cases hrun : s.run with
  | halted =>
    cases h.symm.trans (step_halted hrun)
    exact hok
  | running =>
    obtain hstatus | ⟨c, info, hrow, rfl⟩ := step_status_eq_or_haltRow hrun h
    · simp only [State.status, Prod.mk.injEq, hrun] at hstatus
      obtain ⟨hrun', hcause, hinfo⟩ := hstatus
      rw [State.statusOk_of_running hrun', hcause, hinfo]
      exact (State.statusOk_of_running hrun).mp hok
    · exact hrow.statusOk

/-- The invariant, as the three facts it consists of. -/
theorem State.inv_iff : s.inv = true ↔ s.mem.wf = true ∧ s.pc.toNat ≤ 32768 ∧ s.statusOk = true := by
  simp only [State.inv, Bool.and_eq_true, decide_eq_true_eq, and_assoc]

/-- Settles O19, part by part. -/
theorem stepKeepsInvariant : Obligations.StepKeepsInvariant := by
  intro s t hinv hstep
  obtain ⟨hmem, hpc, hok⟩ := State.inv_iff.mp hinv
  exact State.inv_iff.mpr
    ⟨(step_storesAtMostOneValue hstep).wf hmem, step_pc_le hstep hpc, step_statusOk hstep hok⟩

end Sys2Proof.Machine
end

section
/-! What every instruction leaves alone (20_memory.md section 1, 10_state.md sections 2 and 4, 41_execution_loop.md
section 2): one frame for each field, by cases on the effects. -/

namespace Sys2Proof.Machine

variable {s t : State}

/-! ### The policy -/

/-- No instruction writes the policy (log entry 3). -/
theorem Effect.policy_eq {i : Instr} (h : Effect s i t) : t.policy = s.policy := by
  cases h with
  | rejected h =>
    obtain ⟨_, _, rfl⟩ := h.eq_haltWith
    rfl
  | result | popped | received => simp
  | _ => rfl

/-- No step writes the policy. -/
theorem step_policy (h : step s = .next t) : t.policy = s.policy := by
  obtain ⟨-, rfl⟩ | ⟨-, e, -, rfl⟩ | ⟨-, i, rest, -, -, heff⟩ := step_inv h
  · rfl
  · obtain ⟨c, info, hhalt⟩ := fetchHalt_eq s e
    rw [hhalt, State.haltWith_policy]
  · exact heff.policy_eq

/-- Settles O20: the status word is kept or that of a row, and the row of an out-of-range operand asks for `reject`. -/
theorem normalizeNeverRejects : Obligations.NormalizeNeverRejects := by
  intro s t hpol hcause hstep
  refine ⟨?cause, (step_policy hstep).trans hpol⟩
  cases hrun : s.run with
  | halted =>
    cases hstep.symm.trans (step_halted hrun)
    exact hcause
  | running =>
    obtain hstatus | ⟨c, info, hrow, rfl⟩ := step_status_eq_or_haltRow hrun hstep
    · simp only [State.status, Prod.mk.injEq] at hstatus
      obtain ⟨-, hkept, -⟩ := hstatus
      rwa [hkept]
    · rw [State.haltedWith_cause]
      rintro rfl
      cases hrow with
      | outOfRangeOperand _ hreject _ _ => cases hpol.symm.trans hreject

/-! ### The pc -/

/-- Settles O21: `Effect.pc_cases` without the halts. -/
theorem onlyTheJumpFamilySetsPc : Obligations.OnlyTheJumpFamilySetsPc := by
  intro i s t _ hexec hrun
  obtain hadv | ⟨-, hhalted | ⟨rfl, a, rfl⟩⟩ | ⟨hsets, v, hv⟩ := (exec_inv hexec).pc_cases
  · exact ⟨fun _ => .inl hadv, fun _ => .inr hadv⟩
  · cases hrun.symm.trans hhalted
  · exact ⟨fun _ => .inr ⟨rfl, a, rfl⟩, fun hsets => nomatch hsets⟩
  · refine ⟨fun hsets' => (Bool.eq_false_iff.mp hsets' hsets).elim, fun _ => .inl ?_⟩
    rw [hv]
    exact toNat_setWidth_le v

/-! ### Memory and registers -/

/-- A cell that a write changes is the one its operand denotes as a literal. -/
theorem State.write_target_mem_ne {k : Resolved} {v a : Nat}
    (h : (s.write (target k) v).mem.read a ≠ s.mem.read a) : ∃ n, k = .lit n ∧ a = n.toNat := by
  cases k with
  | reg i => exact absurd rfl h
  | lit n =>
    refine ⟨n, rfl, by_contra fun hne => h ?_⟩
    rw [State.read_write, target_lit]
    exact if_neg hne

/-- A register that a write changes is the one its operand denotes. -/
theorem State.write_target_reg_ne {k : Resolved} {v : Nat} {j : Fin 8}
    (h : (s.write (target k) v).reg j ≠ s.reg j) : k = .reg j := by
  cases k with
  | lit n => exact absurd rfl h
  | reg i =>
    refine by_contra fun hne => h ?_
    rw [State.reg_write, target_reg]
    exact if_neg fun heq => hne (congrArg Resolved.reg (Target.reg.inj heq))

/-- Settles O22: `wmem` stores at its address, a result goes to the cell its literal target names, and `set` has no
literal target. -/
theorem memoryChangesOnlyByItsWriters : Obligations.MemoryChangesOnlyByItsWriters := by
  intro i s t a hexec hne
  cases exec_inv hexec with
  | rejected h =>
    obtain ⟨_, _, rfl⟩ := h.eq_haltWith
    exact absurd rfl hne
  | result hi hclass hset _ _ =>
    obtain ⟨n, rfl, ha⟩ := State.write_target_mem_ne hne
    exact .inr ⟨_, n, hi, hclass, ha, fun x y hxy => nomatch hset x y hxy⟩
  | popped hclass _ | received hclass _ =>
    obtain ⟨n, rfl, ha⟩ := State.write_target_mem_ne hne
    exact .inr ⟨_, n, rfl, hclass, ha, fun _ _ => nofun⟩
  | stored hclass _ =>
    refine .inl ⟨_, _, _, rfl, hclass, by_contra fun ha => hne ?_⟩
    rw [State.advance_mem, State.read_memWrite, if_neg ha]
  | _ => exact absurd rfl hne

/-- Settles O24: a result goes to the register its operand denotes, and only a reference to a register denotes it. -/
theorem registersChangeOnlyAsTargets : Obligations.RegistersChangeOnlyAsTargets := by
  intro i s t j hexec hne
  cases exec_inv hexec with
  | rejected h =>
    obtain ⟨_, _, rfl⟩ := h.eq_haltWith
    exact absurd rfl hne
  | result hi hclass _ _ _ =>
    rw [State.write_target_reg_ne hne] at hclass
    rw [hi, classify_ok_reg hclass]
  | popped hclass _ | received hclass _ =>
    rw [State.write_target_reg_ne hne] at hclass
    rw [classify_ok_reg hclass]
    rfl
  | _ => exact absurd rfl hne

/-! ### The stack -/

/-- Settles O25: `push` and `call` append, `pop` and `ret` take off the top they found, and no other effect touches the
stack. -/
theorem stackChangesOnlyByItsInstructions : Obligations.StackChangesOnlyByItsInstructions := by
  intro i s t hexec
  cases exec_inv hexec with
  | rejected h =>
    obtain ⟨_, _, rfl⟩ := h.eq_haltWith
    exact .inl rfl
  | pushed => exact .inr (.inl ⟨.inl ⟨_, rfl⟩, _, rfl⟩)
  | called => exact .inr (.inl ⟨.inr ⟨_, rfl⟩, _, rfl⟩)
  | popped _ hs => exact .inr (.inr ⟨.inl ⟨_, rfl⟩, _, by simpa using hs⟩)
  | returned hs => exact .inr (.inr ⟨.inr rfl, _, hs⟩)
  | result | received => exact .inl (by simp)
  | _ => exact .inl rfl

/-! ### The console -/

/-- The output is kept, or the instruction is `out` and its operand's value was appended (R122). -/
theorem Effect.output_cases {i : Instr} (h : Effect s i t) :
    t.output = s.output ∨
      ∃ a k, i = .out a ∧ classify s.policy a = .ok k ∧ t.output = s.output ++ [s.value k] := by
  cases h with
  | rejected h =>
    obtain ⟨_, _, rfl⟩ := h.eq_haltWith
    exact .inl rfl
  | emitted hclass => exact .inr ⟨_, _, rfl, hclass, rfl⟩
  | result | popped | received => exact .inl (by simp)
  | _ => exact .inl rfl

/-- The buffer and the lines are kept, or the instruction is `in` and took the next code (R123). -/
theorem Effect.input_cases {i : Instr} (h : Effect s i t) :
    (t.inbuf = s.inbuf ∧ t.lines = s.lines) ∨ ∃ a ch, i = .inp a ∧
      ((s.inbuf = ch :: t.inbuf ∧ t.lines = s.lines) ∨
        (s.inbuf = [] ∧ consoleReadLine s.lines = some (ch, t.inbuf, t.lines))) := by
  cases h with
  | rejected h =>
    obtain ⟨_, _, rfl⟩ := h.eq_haltWith
    exact .inl ⟨rfl, rfl⟩
  | received _ hcode => exact .inr ⟨_, _, rfl, by simpa using hcode⟩
  | result | popped => exact .inl (by simp)
  | _ => exact .inl ⟨rfl, rfl⟩

/-- Settles O26: a halted machine and a fetch that halts keep the console's fields; the rest is the instruction's
effect. -/
theorem onlyOutEmitsOnlyInConsumes : Obligations.OnlyOutEmitsOnlyInConsumes := by
  intro s t hstep
  obtain ⟨-, rfl⟩ | ⟨-, e, -, rfl⟩ | ⟨-, i, rest, hf, -, heff⟩ := step_inv hstep
  · exact ⟨.inl rfl, .inl ⟨rfl, rfl⟩⟩
  · obtain ⟨c, info, hhalt⟩ := fetchHalt_eq s e
    rw [hhalt]
    exact ⟨.inl rfl, .inl ⟨rfl, rfl⟩⟩
  · constructor
    · obtain hkept | ⟨a, k, rfl, hclass, hout⟩ := heff.output_cases
      · exact .inl hkept
      · exact .inr ⟨a, k, rest, hf, hclass, hout⟩
    · obtain hkept | ⟨a, ch, rfl, hcode⟩ := heff.input_cases
      · exact .inl hkept
      · exact .inr ⟨a, ch, rest, hf, hcode⟩

end Sys2Proof.Machine
end

section
/-! The output is never read (10_state.md R19): every operation, and so every step, does the same whatever record of
earlier output stands before. -/

namespace Sys2Proof.Machine

/-- The state with `e` emitted before all that it records. -/
def State.withEarlier (s : State) (e : List Value) : State := { s with output := e ++ s.output }

variable (s : State) (e : List Value)

/-! ### The operations commute with it -/

@[simp] theorem State.memRead_withEarlier (a : Value) : (s.withEarlier e).memRead a = s.memRead a := rfl
@[simp] theorem State.returnAddress_withEarlier : (s.withEarlier e).returnAddress = s.returnAddress := rfl

@[simp] theorem State.value_withEarlier (k : Resolved) : (s.withEarlier e).value k = s.value k := by
  cases k <;> rfl

@[simp] theorem State.advance_withEarlier (len : Nat) :
    (s.withEarlier e).advance len = (s.advance len).withEarlier e := rfl

@[simp] theorem State.jump_withEarlier (v : Value) : (s.withEarlier e).jump v = (s.jump v).withEarlier e := rfl

@[simp] theorem State.push_withEarlier (v : Value) : (s.withEarlier e).push v = (s.push v).withEarlier e := rfl

@[simp] theorem State.memWrite_withEarlier (a v : Value) :
    (s.withEarlier e).memWrite a v = (s.memWrite a v).withEarlier e := rfl

@[simp] theorem State.haltWith_withEarlier (c : Cause) (info : Info) :
    (s.withEarlier e).haltWith c info = (s.haltWith c info).withEarlier e := rfl

@[simp] theorem State.write_withEarlier (t : Target) (v : Nat) :
    (s.withEarlier e).write t v = (s.write t v).withEarlier e := by
  cases t <;> rfl

@[simp] theorem State.emit_withEarlier (v : Value) : (s.withEarlier e).emit v = (s.emit v).withEarlier e := by
  simp only [State.emit, State.withEarlier, List.append_assoc]

theorem State.pop?_withEarlier :
    (s.withEarlier e).pop? = s.pop?.map fun p => (p.1, p.2.withEarlier e) := by
  obtain ⟨hs, hp⟩ | ⟨st, v, hs, hp⟩ := s.pop?_cases
  · rw [hp, State.pop?_none (s := s.withEarlier e) hs]
    rfl
  · rw [hp, State.pop?_some (s := s.withEarlier e) hs]
    rfl

theorem State.nextCode?_withEarlier :
    (s.withEarlier e).nextCode? = s.nextCode?.map fun p => (p.1, p.2.withEarlier e) := by
  unfold State.nextCode? State.withEarlier
  cases s.inbuf with
  | cons ch rest => rfl
  | nil => cases consoleReadLine s.lines <;> rfl

/-! ### So do the checks of the operands -/

variable {s e}

theorem State.withOperand_withEarlier {p : Nat} {o : Operand} {k k' : Resolved → State}
    (hk : ∀ r, k' r = (k r).withEarlier e) :
    (s.withEarlier e).withOperand p o k' = (s.withOperand p o k).withEarlier e := by
  cases hclass : classify s.policy o with
  | ok r => rw [State.withOperand_ok k hclass, State.withOperand_ok (s := s.withEarlier e) k' hclass, hk]
  | error c =>
    rw [State.withOperand_error k hclass, State.withOperand_error (s := s.withEarlier e) k' hclass,
      State.haltWith_withEarlier]

theorem State.with1_withEarlier {a : Operand} {k k' : Resolved → State} (hk : ∀ ka, k' ka = (k ka).withEarlier e) :
    (s.withEarlier e).with1 a k' = (s.with1 a k).withEarlier e :=
  withOperand_withEarlier hk

theorem State.with2_withEarlier {a b : Operand} {k k' : Resolved → Resolved → State}
    (hk : ∀ ka kb, k' ka kb = (k ka kb).withEarlier e) :
    (s.withEarlier e).with2 a b k' = (s.with2 a b k).withEarlier e :=
  withOperand_withEarlier fun ka => withOperand_withEarlier (hk ka)

theorem State.with3_withEarlier {a b c : Operand} {k k' : Resolved → Resolved → Resolved → State}
    (hk : ∀ ka kb kc, k' ka kb kc = (k ka kb kc).withEarlier e) :
    (s.withEarlier e).with3 a b c k' = (s.with3 a b c k).withEarlier e :=
  withOperand_withEarlier fun ka => withOperand_withEarlier fun kb => withOperand_withEarlier (hk ka kb)

theorem State.binary_withEarlier (f : Value → Value → Nat) (a b c : Operand) :
    (s.withEarlier e).binary f a b c = (s.binary f a b c).withEarlier e :=
  with3_withEarlier fun _ _ _ => by simp

/-! ### And the instructions -/

/-- An instruction answers the same next state with the earlier codes before its output. -/
theorem exec_withEarlier (i : Instr) (s : State) (e : List Value) :
    ∃ t, exec i s = .next t ∧ exec i (s.withEarlier e) = .next (t.withEarlier e) := by
  cases i with
  | halt | noop => exact ⟨_, rfl, rfl⟩
  | eq | gt | add | mult | and | or =>
    exact ⟨_, rfl, congrArg Host.Outcome.next (State.binary_withEarlier _ _ _ _)⟩
  | push | jmp | call | out =>
    exact ⟨_, rfl, congrArg Host.Outcome.next (State.with1_withEarlier fun _ => by simp)⟩
  | not | rmem | wmem =>
    exact ⟨_, rfl, congrArg Host.Outcome.next (State.with2_withEarlier fun _ _ => by simp)⟩
  | jt | jf =>
    refine ⟨_, rfl, congrArg Host.Outcome.next (State.with2_withEarlier fun ka kb => ?_)⟩
    simp only [State.value_withEarlier, State.jump_withEarlier, State.advance_withEarlier]
    split <;> rfl
  | set =>
    refine ⟨_, rfl, congrArg Host.Outcome.next (State.with2_withEarlier fun ka kb => ?_)⟩
    cases ka <;> simp
  | mod =>
    refine ⟨_, rfl, congrArg Host.Outcome.next (State.with3_withEarlier fun ka kb kc => ?_)⟩
    simp only [State.value_withEarlier, State.haltWith_withEarlier, State.write_withEarlier,
      State.advance_withEarlier]
    split <;> rfl
  | ret =>
    refine ⟨_, rfl, congrArg Host.Outcome.next ?_⟩
    rw [State.pop?_withEarlier]
    cases s.pop? <;> rfl
  | pop =>
    refine ⟨_, rfl, congrArg Host.Outcome.next (State.with1_withEarlier fun ka => ?_)⟩
    rw [State.pop?_withEarlier]
    cases s.pop? <;> simp
  | inp =>
    refine ⟨_, rfl, congrArg Host.Outcome.next (State.with1_withEarlier fun ka => ?_)⟩
    rw [State.nextCode?_withEarlier]
    cases s.nextCode? <;> simp

/-- What is fetched depends on the pc and on memory alone. -/
theorem State.fetch_congr {s t : State} (hmem : t.mem = s.mem) (hpc : t.pc = s.pc) : t.fetch = s.fetch := by
  rw [State.fetch, State.fetch, hpc, State.cellsFrom_congr hmem]

theorem State.fetch_withEarlier : (s.withEarlier e).fetch = s.fetch := State.fetch_congr rfl rfl

/-- A halt of the fetch is a halt of the same row. -/
theorem State.fetchHalt_withEarlier (err : DecodeError) :
    (s.withEarlier e).fetchHalt err = (s.fetchHalt err).withEarlier e := by
  cases err <;> rfl

/-- A step answers the same next state with the earlier codes before its output. -/
theorem step_withEarlier {t : State} (h : step s = .next t) : step (s.withEarlier e) = .next (t.withEarlier e) := by
  obtain ⟨hrun, rfl⟩ | ⟨hrun, err, hf, rfl⟩ | ⟨hrun, i, rest, hf, hexec, -⟩ := step_inv h
  · exact step_halted hrun
  · rw [step_unfetched (s := s.withEarlier e) hrun (State.fetch_withEarlier.trans hf), State.fetchHalt_withEarlier]
  · obtain ⟨u, hu, hearlier⟩ := exec_withEarlier i s e
    cases hexec.symm.trans hu
    exact (step_fetched (s := s.withEarlier e) hrun (State.fetch_withEarlier.trans hf)).trans hearlier

/-- Settles O27: putting codes before the output and a step commute. -/
theorem outputIsNeverRead : Obligations.OutputIsNeverRead :=
  fun _ _ _ hstep => step_withEarlier hstep

end Sys2Proof.Machine
end

section
/-! The instructions that set, push and pop (43_set_push_pop.md) and `halt` (42_halt_noop.md). -/

namespace Sys2Proof.Machine

/-! ### halt -/

/-- `halt` is the one cell 0 (R51, R100). -/
theorem encodedF0_halt : EncodedF0 0 .halt := fun _ => rfl

/-- Settles O32: `halt` is an advance by one cell and the halt. -/
theorem haltAdvancesAndHalts : Obligations.HaltAdvancesAndHalts :=
  ⟨encodedF0_halt, fun _ => rfl⟩

/-! ### set -/

/-- `set` is the cell 1 and two operand cells (R51, R102). -/
theorem encodedF2_set : EncodedF2 1 .set := fun _ _ _ => rfl

/-- `set` with a register is the write of the source's value to it (R102). -/
theorem exec_set_of_classify_reg {s : State} {a b : Operand} {i : Fin 8} {kb : Resolved}
    (ha : classify s.policy a = .ok (.reg i)) (hb : classify s.policy b = .ok kb) :
    exec (.set a b) s = .next ((s.write (target (.reg i)) (s.value kb).toNat).advance 3) :=
  congrArg Host.Outcome.next (State.with2_ok _ ha hb)

/-- `set` with a literal halts with the operand's raw cell (R102). -/
theorem exec_set_of_classify_lit {s : State} {a b : Operand} {n : Value} {kb : Resolved}
    (ha : classify s.policy a = .ok (.lit n)) (hb : classify s.policy b = .ok kb) :
    exec (.set a b) s = .next (s.haltWith .invalidWriteTarget (cellInfo a.cell)) :=
  congrArg Host.Outcome.next (State.with2_ok _ ha hb)

/-- Settles O33: `set` is the write of a result to the register. -/
theorem setLoadsRegister : Obligations.SetLoadsRegister := by
  refine ⟨encodedF2_set, fun s i b kb hb => ⟨_, exec_set_of_classify_reg (classify_reg _ i) hb, ?_⟩⟩
  exact s.storesResult_write_advance (.reg i) _ 3

/-- Settles O34: the halt of `set` has the raw cell as its detail word. -/
theorem setWithoutRegisterHalts : Obligations.SetWithoutRegisterHalts := by
  intro s a b n kb ha hb
  refine ⟨_, exec_set_of_classify_lit ha hb, ?_⟩
  rw [HaltsWith, ← cellInfo_eq]
  rfl

/-! ### pop -/

/-- `pop` is the cell 3 and one operand cell (R51, R104). -/
theorem encodedF1_pop : EncodedF1 3 .pop := fun _ _ => rfl

/-- `pop` with a value on the stack is the write of that value on the state without it (R104). -/
theorem exec_pop_of_stack_append {s : State} {a : Operand} {ka : Resolved} {st : List Value} {v : Value}
    (ha : classify s.policy a = .ok ka) (hs : s.stack = st ++ [v]) :
    exec (.pop a) s = .next ((({ s with stack := st } : State).write (target ka) v.toNat).advance 2) := by
  refine congrArg Host.Outcome.next ((State.with1_ok _ ha).trans ?_)
  rw [State.pop?_some hs]

/-- `pop` with an empty stack halts (R104). -/
theorem exec_pop_of_stack_nil {s : State} {a : Operand} {ka : Resolved} (ha : classify s.policy a = .ok ka)
    (hs : s.stack = []) : exec (.pop a) s = .next (s.haltWith .stackUnderflow 0) := by
  refine congrArg Host.Outcome.next ((State.with1_ok _ ha).trans ?_)
  rw [State.pop?_none hs]

/-- Settles O36: `pop` is the write of a result on the state without the top of the stack. -/
theorem popStoresTheTop : Obligations.PopStoresTheTop := by
  refine ⟨encodedF1_pop, fun s a ka st v ha hs => ⟨_, exec_pop_of_stack_append ha hs, ?_⟩⟩
  exact State.storesResult_write_advance _ ka _ 2

/-- Settles O37: there is nothing to pop. -/
theorem popEmptyHalts : Obligations.PopEmptyHalts :=
  fun _ _ _ ha hs => ⟨_, exec_pop_of_stack_nil ha hs, rfl⟩

/-- `pop` into a register with `v` on top of `st`: the register holds `v`, every other one what it held, and `st` is
left. -/
theorem exec_pop_reg {s : State} {st : List Value} {v : Value} (i : Fin 8) (hs : s.stack = st ++ [v]) :
    ∃ t, exec (.pop (.reg i)) s = .next t ∧ t.stack = st ∧ ∀ j, t.reg j = if j = i then v else s.reg j := by
  refine ⟨_, exec_pop_of_stack_append (classify_reg _ i) hs, by simp, fun j => ?_⟩
  rw [State.reg_advance, State.reg_write, ofNat_toNat_mod, target_reg]
  simp only [Target.reg.injEq, eq_comm]
  rfl

/-- Settles O29: the two pops see the stack that the two pushes left, and the second leaves the first one's register
alone. -/
theorem stackIsLastInFirstOut : Obligations.StackIsLastInFirstOut := by
  intro s x y i j hij
  obtain ⟨s₃, hpop₁, hstack₃, hreg₃⟩ :=
    exec_pop_reg (s := (((s.push x).advance 2).push y).advance 2) (st := s.stack ++ [x]) i rfl
  obtain ⟨s₄, hpop₂, hstack₄, hreg₄⟩ := exec_pop_reg j hstack₃
  refine ⟨_, _, s₃, s₄, exec_push_of_classify_ok (classify_lit _ x), exec_push_of_classify_ok (classify_lit _ y),
    hpop₁, hpop₂, ?_, ?_, hstack₄⟩
  · rw [hreg₄, if_neg hij, hreg₃, if_pos rfl]
  · rw [hreg₄, if_pos rfl]

end Sys2Proof.Machine
end

section
/-! The rest of compare (44_compare.md), arithmetic and logic (46_arith_logic.md) and the memory access
(47_rmem_wmem.md). -/

namespace Sys2Proof.Machine

/-! ### gt -/

/-- `gt` is the cell 5 and three operand cells (R51, R106). -/
theorem encodedF3_gt : EncodedF3 5 .gt := fun _ _ _ _ => rfl

/-- `gt` is the shared shape at the unsigned comparison. -/
theorem exec_gt (a b c : Operand) (s : State) : exec (.gt a b c) s = .next (s.binary aluGt a b c) := rfl

/-- The truth value of the comparison, read on the numbers (R106). -/
theorem aluGt_eq_ite (x y : Value) : aluGt x y = if y.toNat < x.toNat then 1 else 0 := by
  simp only [aluGt, truthValue, decide_eq_true_eq]

/-- Settles O39: `gt` is the shared shape, and what it stores there is the truth value of the comparison. -/
theorem gtStoresTruth : Obligations.GtStoresTruth := by
  refine ⟨encodedF3_gt, fun s a b c ka kb kc ha hb hc => ⟨_, exec_gt a b c s, ?_⟩⟩
  rw [← aluGt_eq_ite]
  exact State.storesResult_binary aluGt ha hb hc

/-! ### mod -/

/-- `mod` is the cell 11 and three operand cells (R51, R112). -/
theorem encodedF3_mod : EncodedF3 11 .mod := fun _ _ _ _ => rfl

/-- `mod` halts at the divisor 0 and else writes the remainder (R112). -/
theorem exec_mod_of_classify_ok {s : State} {a b c : Operand} {ka kb kc : Resolved}
    (ha : classify s.policy a = .ok ka) (hb : classify s.policy b = .ok kb) (hc : classify s.policy c = .ok kc) :
    exec (.mod a b c) s = .next (if s.value kc = 0 then s.haltWith .divisionByZero 0
      else (s.write (target ka) (aluMod (s.value kb) (s.value kc))).advance 4) :=
  congrArg Host.Outcome.next (State.with3_ok _ ha hb hc)

/-- Settles O45: quotient and remainder are those of the division of natural numbers. -/
theorem modStoresRemainder : Obligations.ModStoresRemainder := by
  refine ⟨encodedF3_mod, fun s a b c ka kb kc ha hb hc h0 =>
    ⟨_, (s.value kb).toNat / (s.value kc).toNat, aluMod (s.value kb) (s.value kc), ?exec,
      s.storesResult_write_advance ka _ 4, Nat.mod_lt _ (BitVec.toNat_pos_of_ne_zero h0), ?division⟩⟩
  case exec => rw [exec_mod_of_classify_ok ha hb hc, if_neg h0]
  case division => exact (Nat.div_add_mod' ..).symm

/-- Settles O46: the test of the divisor comes before the write. -/
theorem modByZeroHalts : Obligations.ModByZeroHalts := by
  intro s a b c ka kb kc ha hb hc h0
  refine ⟨_, exec_mod_of_classify_ok ha hb hc, ?_⟩
  rw [if_pos h0]
  rfl

/-! ### not -/

/-- `not` is the cell 14 and two operand cells (R51, R115). -/
theorem encodedF2_not : EncodedF2 14 .not := fun _ _ _ => rfl

/-- `not` writes the complement of the source's value, by `aluNot_eq` (R115). -/
theorem exec_not_of_classify_ok {s : State} {a b : Operand} {ka kb : Resolved} (ha : classify s.policy a = .ok ka)
    (hb : classify s.policy b = .ok kb) :
    exec (.not a b) s = .next ((s.write (target ka) (~~~(s.value kb)).toNat).advance 3) := by
  rw [← aluNot_eq]
  exact congrArg Host.Outcome.next (State.with2_ok _ ha hb)

/-- Settles O49: the stored value is the complement of the source, as a number and bit by bit. -/
theorem notStoresComplement : Obligations.NotStoresComplement := by
  refine ⟨encodedF2_not, fun s a b ka kb ha hb =>
    ⟨_, ~~~(s.value kb), exec_not_of_classify_ok ha hb, s.storesResult_write_advance ka _ 3, ?number, ?bits⟩⟩
  case number => exact BitVec.toNat_not
  case bits =>
    intro n hn
    rw [BitVec.getLsbD_not, decide_eq_true hn, Bool.true_and]

/-! ### rmem and wmem -/

/-- `rmem` is the cell 15 and two operand cells (R51, R118). -/
theorem encodedF2_rmem : EncodedF2 15 .rmem := fun _ _ _ => rfl

/-- `rmem` writes the number of the cell at the value of its second operand (R118). -/
theorem exec_rmem_of_classify_ok {s : State} {a b : Operand} {ka kb : Resolved} (ha : classify s.policy a = .ok ka)
    (hb : classify s.policy b = .ok kb) :
    exec (.rmem a b) s =
      .next ((s.write (target ka) (s.mem.read (s.value kb).toNat).toNat).advance 3) :=
  congrArg Host.Outcome.next (State.with2_ok _ ha hb)

/-- Settles O50: `rmem` is the write of a result. -/
theorem rmemStoresTheCell : Obligations.RmemStoresTheCell :=
  ⟨encodedF2_rmem, fun s _ _ ka _ ha hb =>
    ⟨_, exec_rmem_of_classify_ok ha hb, s.storesResult_write_advance ka _ 3⟩⟩

/-- What is read from an address on depends on the cells from there on. -/
theorem State.cellsFrom_congr_of_le {s t : State} {a : Nat} (h : ∀ b, a ≤ b → t.mem.read b = s.mem.read b) (k : Nat) :
    t.cellsFrom a k = s.cellsFrom a k := by
  induction k generalizing a with
  | zero => rfl
  | succ k ih =>
    simp only [State.cellsFrom, h a le_rfl, ih fun b hb => h b (Nat.le_of_succ_le hb)]

/-- Settles O28: the first cell fetched is the stored one, and the store left the cells after it as they were. -/
theorem storeIsSeenByTheNextFetch : Obligations.StoreIsSeenByTheNextFetch := by
  intro s a b ka kb ha hb
  refine ⟨_, exec_wmem_of_classify_ok ha hb, fun u hmem hpc => ?_⟩
  have hread : ∀ c, u.mem.read c =
      if c = (s.value ka).toNat then (s.value kb).setWidth 16 else s.mem.read c := by
    intro c
    rw [hmem, State.advance_mem, State.read_memWrite]
  have htail : u.cellsFrom ((s.value ka).toNat + 1) 3 = s.cellsFrom ((s.value ka).toNat + 1) 3 :=
    State.cellsFrom_congr_of_le (fun c hc => by rw [hread, if_neg (by omega)]) 3
  rw [State.fetch, hpc, State.cellsFrom_succ u (Nat.le_of_lt_succ (s.value ka).isLt), htail, hread, if_pos rfl]

end Sys2Proof.Machine
end

section
/-! The call family (48_call_ret.md): `call` leaves the address after it on the stack, `ret` takes it from there. -/

namespace Sys2Proof.Machine

/-- `call` is the cell 17 and one operand cell (R51, R120). -/
theorem encodedF1_call : EncodedF1 17 .call := fun _ _ => rfl

/-- `ret` is the one cell 18 (R51, R121). -/
theorem encodedF0_ret : EncodedF0 18 .ret := fun _ => rfl

/-- `call` pushes the return address and jumps to its operand's value (R120). -/
theorem exec_call_of_classify_ok {s : State} {a : Operand} {ka : Resolved} (ha : classify s.policy a = .ok ka) :
    exec (.call a) s = .next ((s.push s.returnAddress).jump (s.value ka)) :=
  congrArg Host.Outcome.next (State.with1_ok _ ha)

/-- `ret` with a value on the stack jumps to it on the state without it (R121). -/
theorem exec_ret_of_stack_append {s : State} {st : List Value} {v : Value} (hs : s.stack = st ++ [v]) :
    exec .ret s = .next (({ s with stack := st } : State).jump v) := by
  refine congrArg Host.Outcome.next ?_
  rw [State.pop?_some hs]

/-- `ret` with an empty stack halts (R121). -/
theorem exec_ret_of_stack_nil {s : State} (hs : s.stack = []) : exec .ret s = .next (s.haltWith .retEmpty 0) := by
  refine congrArg Host.Outcome.next ?_
  rw [State.pop?_none hs]

/-- Settles O52: `call` is a push and a jump, and the stack and the pc are the two fields that change. -/
theorem callPushesReturnAddress : Obligations.CallPushesReturnAddress := by
  refine ⟨encodedF1_call, fun s a ka ha => ?_⟩
  rw [exec_call_of_classify_ok ha, State.jump_eq]
  rfl

/-- Settles O53: `ret` is a jump on the state without the top of the stack. -/
theorem retJumpsToThePopped : Obligations.RetJumpsToThePopped := by
  refine ⟨encodedF0_ret, fun s st v hs => ?_⟩
  rw [exec_ret_of_stack_append hs, State.jump_eq]

/-- Settles O54: there is nothing to pop, and the class of `RET_EMPTY` is clean. -/
theorem retEmptyHaltsCleanly : Obligations.RetEmptyHaltsCleanly :=
  fun _ hs => ⟨_, exec_ret_of_stack_nil hs, rfl, rfl⟩

/-- The pc after a jump is the number of the target's value. -/
theorem State.toNat_jump_pc (s : State) (v : Value) : (s.jump v).pc.toNat = v.toNat :=
  BitVec.toNat_setWidth_of_le (by decide)

/-- Settles O30: where the address after the call exists it is pushed unreduced, and the `ret` that finds it on top goes
there. -/
theorem callThenRetResumes : Obligations.CallThenRetResumes := by
  intro s a k ha hpc
  refine ⟨_, exec_call_of_classify_ok ha, State.toNat_jump_pc .., fun u hu => ?_⟩
  refine ⟨_, exec_ret_of_stack_append hu, ?_, rfl⟩
  rw [State.toNat_jump_pc, State.returnAddress, toNat_ofNat_mod, Nat.mod_eq_of_lt (Nat.lt_succ_of_le hpc)]

end Sys2Proof.Machine
end

section
/-! The console family (49_console_io.md): `out` emits, `in` takes the next code or waits for one. -/

namespace Sys2Proof.Machine

/-! ### out -/

/-- `out` is the cell 19 and one operand cell (R51, R122). -/
theorem encodedF1_out : EncodedF1 19 .out := fun _ _ => rfl

/-- Settles O55: `out` is an emission and an advance, and the output and the pc are the two fields that change. -/
theorem outEmitsTheValue : Obligations.OutEmitsTheValue :=
  ⟨encodedF1_out, fun _ _ _ ha => congrArg Host.Outcome.next (State.with1_ok _ ha)⟩

/-! ### The next code -/

/-- The next code of a buffer that has one. -/
theorem State.nextCode?_of_inbuf {s : State} {ch : Code} {rest : List Code} (hbuf : s.inbuf = ch :: rest) :
    s.nextCode? = some (ch, { s with inbuf := rest }) := by
  simp only [State.nextCode?, hbuf]

/-- With an empty buffer the next code is that of the next line. -/
theorem State.nextCode?_of_line {s : State} {ch : Code} {line : Line} {left : List Line} (hbuf : s.inbuf = [])
    (hline : consoleReadLine s.lines = some (ch, line, left)) :
    s.nextCode? = some (ch, { s with inbuf := line, lines := left }) := by
  simp only [State.nextCode?, hbuf, hline]

/-- With an empty buffer and no line with a code there is no next code. -/
theorem State.nextCode?_of_no_line {s : State} (hbuf : s.inbuf = []) (hlines : s.lines.all List.isEmpty = true) :
    s.nextCode? = none := by
  simp only [State.nextCode?, hbuf, consoleReadLine_none.mpr hlines]

/-! ### in -/

/-- `in` is the cell 20 and one operand cell (R51, R123). -/
theorem encodedF1_inp : EncodedF1 20 .inp := fun _ _ => rfl

/-- `in` with a next code is the write of that code on the machine without it (R123). -/
theorem exec_inp_of_nextCode?_some {s s' : State} {a : Operand} {ka : Resolved} {ch : Code}
    (ha : classify s.policy a = .ok ka) (hch : s.nextCode? = some (ch, s')) :
    exec (.inp a) s = .next ((s'.write (target ka) ch).advance 2) := by
  refine congrArg Host.Outcome.next ((State.with1_ok _ ha).trans ?_)
  rw [hch]

/-- `in` with no next code waits (R123). -/
theorem exec_inp_of_nextCode?_none {s : State} {a : Operand} {ka : Resolved} (ha : classify s.policy a = .ok ka)
    (hch : s.nextCode? = none) : exec (.inp a) s = .next s := by
  refine congrArg Host.Outcome.next ((State.with1_ok _ ha).trans ?_)
  rw [hch]

/-- Settles O56: the next code is that of the buffer. -/
theorem inDeliversTheNextCode : Obligations.InDeliversTheNextCode := by
  refine ⟨encodedF1_inp, fun s a ka ch rest ha hbuf => ?_⟩
  exact ⟨_, exec_inp_of_nextCode?_some ha (State.nextCode?_of_inbuf hbuf), State.storesResult_write_advance _ ka ch 2⟩

/-- Settles O57: the next code is that of the first line that has one. -/
theorem inReadsALine : Obligations.InReadsALine := by
  intro s a ka empty ch line left ha hbuf hlines hempty
  have hline : consoleReadLine s.lines = some (ch, line, left) :=
    hlines ▸ consoleReadLine_skip hempty ch line left
  exact ⟨_, exec_inp_of_nextCode?_some ha (State.nextCode?_of_line hbuf hline),
    State.storesResult_write_advance _ ka ch 2⟩

/-- Settles O58: there is no next code. -/
theorem inWaitsWithoutALine : Obligations.InWaitsWithoutALine :=
  fun _ _ _ ha hbuf hlines => exec_inp_of_nextCode?_none ha (State.nextCode?_of_no_line hbuf hlines)

/-- What the wait state consists of (60_exceptions.md R167). -/
theorem State.waiting_inv {s : State} (h : s.waiting = true) :
    s.run = .running ∧ s.inbuf = [] ∧ s.lines.all List.isEmpty = true ∧
      ∃ a ka rest, s.fetch = .ok (.inp a, rest) ∧ classify s.policy a = .ok ka := by
  unfold State.waiting at h
  split at h
  case h_1 a rest hrun hf =>
    split at h
    case h_1 ka ha =>
      rw [Bool.and_eq_true, List.isEmpty_iff] at h
      obtain ⟨hbuf, hlines⟩ := h
      exact ⟨hrun, hbuf, hlines, a, ka, rest, hf, ha⟩
    case h_2 => cases h
  case h_2 => cases h

/-- Settles O59: while it waits the `in` at the pc has no next code, and the delivered line, the first with a code, is
the one it then reads. -/
theorem waitEndsWhenALineIsDelivered : Obligations.WaitEndsWhenALineIsDelivered := by
  intro s hwait
  obtain ⟨hrun, hbuf, hlines, a, ka, rest, hf, ha⟩ := State.waiting_inv hwait
  refine ⟨(step_fetched hrun hf).trans (inWaitsWithoutALine s a ka ha hbuf hlines), fun ch line => ?_⟩
  obtain ⟨t, hexec, hstores⟩ := inReadsALine (s.deliverLine (ch :: line)) a ka s.lines ch line [] ha hbuf rfl hlines
  have hf' : (s.deliverLine (ch :: line)).fetch = .ok (.inp a, rest) := (State.fetch_congr rfl rfl).trans hf
  exact ⟨t, a, ka, rest, hf, ha, (step_fetched (s := s.deliverLine (ch :: line)) hrun hf').trans hexec, hstores⟩

end Sys2Proof.Machine
end

section
/-! The interfaces (50_interfaces.md) and reset (70_reset_and_hazards.md): the host's reset and run. -/

namespace Sys2Proof.Machine

/-- Settles O16, by what a reset answers. -/
theorem resetPutsTheListedState : Obligations.ResetPutsTheListedState := by
  refine ⟨rfl, fun policy regs image input => ⟨fun hlong => ?refused, fun hfits => ?answered⟩⟩
  case refused => exact if_neg (Nat.not_le_of_lt hlong)
  case answered => exact ⟨_, State.resetWith_eq_some_iff.mpr ⟨hfits, rfl⟩, rfl, rfl, rfl, rfl, rfl, rfl, rfl, rfl⟩

/-- Settles O18: the memory of an image that fits is canonical, the pc is 0 and the status word that of a running
machine. -/
theorem resetMeetsInvariant : Obligations.ResetMeetsInvariant := by
  refine ⟨rfl, fun policy regs image input s hreset => ?_⟩
  obtain ⟨hfits, rfl⟩ := State.resetWith_eq_some_iff.mp hreset
  exact State.inv_iff.mpr ⟨Memory.wf_ofImage image hfits, Nat.zero_le _, rfl⟩

/-- Settles O12: each step of a halted machine is the identity. -/
theorem haltedMachineNeverMoves : Obligations.HaltedMachineNeverMoves := by
  intro k s hhalted
  induction k with
  | zero => rfl
  | succ k ih =>
    have hstep : core.step s = .next s := step_halted hhalted
    simp only [Host.Core.run, hstep, ih]

/-- A machine has a typed result exactly when it is halted (50_interfaces.md R134). -/
theorem State.run_of_result? {s : State} {r : Cause × Info} (h : s.result? = some r) : s.run = .halted := by
  cases hrun : s.run with
  | halted => rfl
  | running => simp [State.result?, hrun] at h

/-- The result of a halted machine is its result under any fuel. -/
theorem hostRun_of_halted {s : State} (h : s.run = .halted) (fuel : Nat) : hostRun fuel s = s.result? := by
  induction fuel with
  | zero => rfl
  | succ fuel ih => simp only [hostRun, step_halted h, ih]

/-- Settles O31: a result at the end of the fuel is that of a halted machine. -/
theorem hostRunResultIsStable : Obligations.HostRunResultIsStable := by
  intro s fuel more r h
  induction fuel generalizing s with
  | zero => rw [Nat.zero_add, hostRun_of_halted (State.run_of_result? h)]; exact h
  | succ fuel ih =>
    obtain ⟨t, hstep, -⟩ := stepAlwaysAnswersNext s
    rw [Nat.add_right_comm]
    simp only [hostRun, hstep] at h ⊢
    exact ih t h

/-- Settles O3: each word is a concrete list of cells, which the decoder reads. -/
theorem specWordsDecode : Obligations.SpecWordsDecode := by
  unfold Obligations.SpecWordsDecode
  decide

end Sys2Proof.Machine
end
